-- ==== Sys2Proof/Word.lean ====
section
/-! DEFINITION. The word types of the engine (00_scope R5, R8): every value is an unsigned bit vector of one fixed
width; lengths and addresses are natural numbers. -/

namespace Sys2Proof

/-- A 32-bit value: a key word, an operand or result register, half a block, a command word (R5, R90). -/
abbrev Word := BitVec 32

/-- A 64-bit Block (R5, R13). -/
abbrev Block := BitVec 64

/-- A byte of one of the two buffers. -/
abbrev Byte := BitVec 8

/-- A 4-bit value: an index into one substitution table, or one of its entries (R8). -/
abbrev Nibble := BitVec 4

/-- The Key, and the key staging registers: exactly eight words (10_state R21, R22). -/
abbrev KeyWords := Vector Word 8

/-- The substitution table set: eight tables of sixteen nibbles (10_state R42). An entry is confined to 0..15 by
its type. -/
abbrev SBox := Vector (Vector Nibble 16) 8

end Sys2Proof
end

