-- ==== Sys2Proof/Syntax.lean ====
section
/-! DEFINITION. The eight commands (30_encoding R95), one constructor per row of spec/opcode_table.json. An
immediate is the natural number its 8-bit field denotes, unsigned, unscaled (R94); WellFormed.lean bounds it. -/

namespace Sys2Proof

inductive Instr where
  /-- `LDKEY n`: construct the Key from the staging registers; `n` is the number of words presented (R143). -/
  | ldkey (n : Nat)
  /-- `SUBST t, n`: look up entry `n` of table `t` (R122). -/
  | subst (t n : Nat)
  /-- `XFORM`: the round transform of ACC and SK (R131). -/
  | xform
  /-- `SUBKEY r`: the subkey of round `r` (R142). -/
  | subkey (r : Nat)
  /-- `ENCBLK`: encrypt the block in BLK (R155). -/
  | encblk
  /-- `DECBLK`: decrypt the block in BLK (R156). -/
  | decblk
  /-- `ENCSTR`: encrypt the input buffer into the output buffer (R175). -/
  | encstr
  /-- `DECSTR`: decrypt the input buffer into the output buffer and strip trailing zeros (R176). -/
  | decstr
deriving DecidableEq, Repr

end Sys2Proof
end

