-- ==== Sys2Proof/WellFormed.lean ====
section
/-! DEFINITION. Which commands a command word can carry: every immediate fits its 8-bit field (30_encoding R94).
The LEGAL range of an operand (table 0..7, nibble 0..15, round 0..31, eight words) is not checked here: a word
may carry a value outside it, and executing it then raises an error (R94, R96). -/

namespace Sys2Proof

/-- The value fits an immediate field of 8 bits (R94). -/
abbrev ImmediateFits (v : Nat) : Prop := v < 256

/-- Every immediate of the command fits its field. -/
abbrev Instr.WellFormed (i : Instr) : Prop :=
  match i with
  | .ldkey n => ImmediateFits n
  | .subst t n => ImmediateFits t ∧ ImmediateFits n
  | .subkey r => ImmediateFits r
  | .xform | .encblk | .decblk | .encstr | .decstr => True

end Sys2Proof
end

