-- ==== Sys2Proof/Decode.lean ====
section
/-! DEFINITION. The decoder of command words, total on all 2^32 of them (30_encoding R96), the fields it reads
(R90), and the encoder, from the same table (R93, R95). -/

namespace Sys2Proof

/-- Why a word is Illegal (R96, R97). The spec has one name, Illegal, for the three; the engine does the same for
each of them. -/
inductive IllegalWord where
  /-- Bits 23:16 are not all zero. -/
  | reservedNotZero
  /-- The opcode is none of the eight of R95. -/
  | undefinedOpcode
  /-- An immediate field that the format requires to be zero is not. -/
  | unusedImmediateNotZero
deriving DecidableEq, Repr

/-- What decoding a word gives: a command, or Illegal with the reason. -/
inductive Decoded where
  | command (i : Instr)
  | illegal (why : IllegalWord)
deriving DecidableEq, Repr

/-- `OP`, bits 31:24 (R90). -/
def opField (cw : Word) : BitVec 8 := cw.extractLsb' 24 8

/-- `RSV`, bits 23:16 (R90). -/
def rsvField (cw : Word) : BitVec 8 := cw.extractLsb' 16 8

/-- `IMM1`, bits 15:8 (R90). -/
def imm1Field (cw : Word) : BitVec 8 := cw.extractLsb' 8 8

/-- `IMM0`, bits 7:0 (R90). -/
def imm0Field (cw : Word) : BitVec 8 := cw.extractLsb' 0 8

/-- Format I1 (R93): IMM1 must be zero; IMM0 is the operand. -/
def decodeI1 (cw : Word) (mk : Nat → Instr) : Decoded :=
  if imm1Field cw ≠ 0 then .illegal .unusedImmediateNotZero else .command (mk (imm0Field cw).toNat)

/-- Format Z (R93): both immediates must be zero. -/
def decodeZ (cw : Word) (i : Instr) : Decoded :=
  if imm1Field cw ≠ 0 ∨ imm0Field cw ≠ 0 then .illegal .unusedImmediateNotZero else .command i

/-- The decoder (R96): RSV first, then the opcode, then the fields its format requires to be zero. It does not look
at the range of an immediate. -/
def decode (cw : Word) : Decoded :=
  if rsvField cw ≠ 0 then .illegal .reservedNotZero
  else if opField cw = 0x01 then decodeI1 cw .ldkey
  else if opField cw = 0x10 then .command (.subst (imm1Field cw).toNat (imm0Field cw).toNat)
  else if opField cw = 0x11 then decodeZ cw .xform
  else if opField cw = 0x12 then decodeI1 cw .subkey
  else if opField cw = 0x20 then decodeZ cw .encblk
  else if opField cw = 0x21 then decodeZ cw .decblk
  else if opField cw = 0x30 then decodeZ cw .encstr
  else if opField cw = 0x31 then decodeZ cw .decstr
  else .illegal .undefinedOpcode

/-- A command word from its fields, RSV zero (R90, R93). -/
def commandWord (op : BitVec 8) (imm1 imm0 : Nat) : Word :=
  (op.setWidth 32 <<< 24) ||| ((BitVec.ofNat 8 imm1).setWidth 32 <<< 8) ||| (BitVec.ofNat 8 imm0).setWidth 32

/-- The word of a well-formed command (R93, R95). -/
def encode : Instr → Word
  | .ldkey n => commandWord 0x01 0 n
  | .subst t n => commandWord 0x10 t n
  | .xform => commandWord 0x11 0 0
  | .subkey r => commandWord 0x12 0 r
  | .encblk => commandWord 0x20 0 0
  | .decblk => commandWord 0x21 0 0
  | .encstr => commandWord 0x30 0 0
  | .decstr => commandWord 0x31 0 0

/-- The `match` column of R95. -/
def tableMatch : Instr → Word
  | .ldkey _ => 0x01000000
  | .subst _ _ => 0x10000000
  | .xform => 0x11000000
  | .subkey _ => 0x12000000
  | .encblk => 0x20000000
  | .decblk => 0x21000000
  | .encstr => 0x30000000
  | .decstr => 0x31000000

/-- The `mask` column of R95. -/
def tableMask : Instr → Word
  | .ldkey _ => 0xFFFFFF00
  | .subst _ _ => 0xFFFF0000
  | .subkey _ => 0xFFFFFF00
  | .xform | .encblk | .decblk | .encstr | .decstr => 0xFFFFFFFF

/-- The command word of an opcode-table row of `nbits` bits: the bits above them are zero. The word is presented
whole, as a number (20_memory R63), so no byte order enters. -/
def tableWord (nbits w : Nat) : Word := BitVec.ofNat 32 (w % 2 ^ nbits)

/-- The command the decoder reads from a word numbered as spec/opcode_table.json numbers it. -/
def decodeTableWord (nbits w : Nat) : Option Instr :=
  match decode (tableWord nbits w) with
  | .command i => some i
  | .illegal _ => none

end Sys2Proof
end

