-- ==== Sys2Proof/Machine/Operands.lean ====
section
/-! DEFINITION. The operand forms: legal ranges of the immediates (30_encoding R94), entries and validity of the
table set (10_state R42, R43), nibbles and halves, the left rotation (00_scope R8, R9), and the little-endian bytes
of a block (00_scope R11, 20_memory R61). -/

namespace Sys2Proof.Machine

/-- The word count LDKEY accepts (R94, R143). -/
def keyLengthLegal (n : Nat) : Bool := n == 8

/-- The operands SUBST accepts: table 0..7, nibble 0..15 (R94, R122). -/
def substOperandsLegal (t n : Nat) : Bool := decide (t ≤ 7) && decide (n ≤ 15)

/-- The round index SUBKEY accepts: 0..31 (R94, R142). -/
def roundLegal (r : Nat) : Bool := decide (r ≤ 31)

/-- `SBOX[t][n]` (10_state R42); the source's `substitute` (40_sbox_set R120). -/
def substitute (sbox : SBox) (t : Fin 8) (n : Nibble) : Nibble := (sbox.get t).get n.toFin

/-- `valid(SBOX)`: each table is a permutation of 0..15. An entry is a nibble by type, so distinctness of the
sixteen entries is all there is to check (10_state R43). -/
def tablesValid (sbox : SBox) : Bool := sbox.toList.all fun table => decide table.toList.Nodup

/-- Nibble position `j` of a 32-bit value, 0 the least significant (00_scope R8). -/
def nibbleAt (v : Word) (j : Fin 8) : Nibble := v.extractLsb' (4 * j.val) 4

/-- `rotl32(v, s)` for `0 < s < 32` (00_scope R9). -/
def rotl32 (v : Word) (s : Nat) : Word := (v <<< s) ||| (v >>> (32 - s))

/-- The high half of a block, bits 63:32 (43_feistel_network R151). -/
def highHalf (b : Block) : Word := b.extractLsb' 32 32

/-- The low half of a block, bits 31:0 (R151). -/
def lowHalf (b : Block) : Word := b.extractLsb' 0 32

/-- `le64(v)`: the eight bytes of a block, byte `i` being bits `8*i+7 : 8*i` (00_scope R11, 20_memory R61). -/
def le64 (v : Block) : List Byte := (List.range 8).map fun i => (v >>> (8 * i)).setWidth 8

/-- `from_le64(s)`: the sum over `i` of `s[i] << (8*i)` (00_scope R11, 20_memory R61). -/
def fromLe64 : List Byte → Block
  | [] => 0
  | b :: bs => b.setWidth 64 + (fromLe64 bs <<< 8)

/-- `zeros(n)` (00_scope R11). -/
def zeros (n : Nat) : List Byte := List.replicate n 0

/-- `pad` of a stream of length `n` (44_ecb_processor R170). -/
def padLength (n : Nat) : Nat := 8 - n % 8

/-- `strip_zeros(s)`: the longest prefix of `s` that is empty or ends in a non-zero byte (00_scope R11,
44_ecb_processor R174). -/
def stripZeros : List Byte → List Byte
  | [] => []
  | b :: bs =>
    match stripZeros bs with
    | [] => if b = 0 then [] else [b]
    | rest => b :: rest

end Sys2Proof.Machine
end

