-- ==== Sys2Proof/Config.lean ====
section
/-! DEFINITION. What the spec leaves open and the model must not choose (00_scope R6, 93 U1, U16, U17): opaque
constants without a body, so that no proof can see a value of them. -/

namespace Sys2Proof

/-- The substitution tables of the engine that `State.reset` describes, each a bijection of the nibbles
(10_state R42), nothing else being known of them (00_scope R6 (a), 91 N1). The type carries the premise
`valid(SBOX)` that R43 allows; other table sets, valid or not, are the other values of `State.sbox`.
DESIGN CHOICE, log 1. -/
opaque Config.perm : Fin 8 → Equiv.Perm Nibble

/-- The table set of `State.reset` as data: entry `n` of table `t` is `Config.perm t n`. -/
def Config.sbox : SBox := Vector.ofFn fun t => Vector.ofFn fun n => Config.perm t (BitVec.ofFin n)

/-- FREE VALUE (10_state R55, 93 U16): the byte IBUF holds at an address nothing has written since a reset, by the
number of resets and the address. The same at every read until it is written (20_memory R67). Log 5. -/
opaque Config.unwrittenByte : Nat → Nat → Byte

/-- FREE VALUE (10_state R45, 93 U16): what a host read of IBUF at or beyond ILEN returns, by a counter of IBUF
writes and the address. Log 5. -/
opaque Config.strayInputByte : Nat → Nat → Byte

/-- FREE VALUE (10_state R46, 93 U16): the byte of OBUF at an address at or beyond OLEN, by a counter of stream
commands and resets and the address. Log 6. -/
opaque Config.strayOutputByte : Nat → Nat → Byte

/-- FREE VALUE (10_state R33, 93 U17): the transient register A between commands, by a counter. Log 7. -/
opaque Config.freeA : Nat → Word

/-- FREE VALUE (R33, U17): the transient register B between commands. Log 7. -/
opaque Config.freeB : Nat → Word

/-- FREE VALUE (R33, U17): the transient register CNT between commands. Log 7. -/
opaque Config.freeCnt : Nat → BitVec 6

/-- FREE VALUE (R33, U17): the transient register DIR between commands. Log 7. -/
opaque Config.freeDir : Nat → BitVec 1

/-- FREE VALUE (R33, U17): the transient register BI between commands. Log 7. -/
opaque Config.freeBi : Nat → Nat

end Sys2Proof
end

