-- ==== Sys2Proof/Machine/Flags.lean ====
section
/-! DEFINITION. The fields of STATUS, the one status register (10_state R36 to R39), and the error codes. The
machine has no arithmetic flags (R35). -/

namespace Sys2Proof.Machine

/-- The kinds of error the engine raises (10_state R39, 60_exceptions R190). -/
inductive ErrKind where
  | malformedTable
  | invalidKeyLength
  | invalidCiphertextLength
  | invalidIndex
  | illegalCommand
  | keyNotLoaded
deriving DecidableEq, Repr

/-- The code `STATUS.ERR` holds for a kind (R39). -/
def ErrKind.code : ErrKind → BitVec 3
  | .malformedTable => 1
  | .invalidKeyLength => 2
  | .invalidCiphertextLength => 3
  | .invalidIndex => 4
  | .illegalCommand => 5
  | .keyNotLoaded => 6

/-- `TBL_OK`, bit 0 (R36, R37). -/
def Status.tblOk (st : Word) : Bool := st.getLsbD 0

/-- `KEY_OK`, bit 1 (R36, R38). -/
def Status.keyOk (st : Word) : Bool := st.getLsbD 1

/-- `ERR`, bits 4:2 (R36, R39). -/
def Status.err (st : Word) : BitVec 3 := st.extractLsb' 2 3

/-- The reserved bits 31:5 (R36). -/
def Status.reserved (st : Word) : BitVec 27 := st.extractLsb' 5 27

/-- STATUS with the given fields and its reserved bits zero (R36). -/
def Status.pack (tblOk keyOk : Bool) (err : BitVec 3) : Word :=
  (err.setWidth 32 <<< 2) ||| ((BitVec.ofBool keyOk).setWidth 32 <<< 1) ||| (BitVec.ofBool tblOk).setWidth 32

/-- STATUS with `ERR`, bits 4:2, replaced and every other bit kept (60_exceptions R193). -/
def Status.setErr (st : Word) (e : BitVec 3) : Word :=
  ((st >>> 5) <<< 5) ||| (e.setWidth 32 <<< 2) ||| (st.setWidth 2).setWidth 32

/-- STATUS with `KEY_OK`, bit 1, set and every other bit kept (42_key_schedule R143). -/
def Status.setKeyOk (st : Word) : Word := st ||| BitVec.twoPow 32 1

end Sys2Proof.Machine
end

