-- ==== Sys2Proof/Machine/State.lean ====
section
/-! DEFINITION. The state of the machine as plain data: all that 10_state R20 lists, and, marked as the MODEL's own,
the host's pending actions, the last host reading, and the counters that keep free values fresh. -/

namespace Sys2Proof.Machine

/-- A byte memory: the bytes with a specified content as (address, byte) pairs, addresses strictly rising
(`Memory.wf`). An address it does not list holds no specified byte, so no entry can equal what an unlisted address
reads as (log 5, log 6). -/
abbrev Memory := List Host.Cell

/-- The transient sequencer registers (10_state R30 to R33), meaningful only inside a command. -/
structure Seq where
  /-- `A` of the running pair (R30). -/
  a : Word
  /-- `B` of the running pair (R30). -/
  b : Word
  /-- `CNT`: rounds done on the current block, 0 to 32 (R31). -/
  cnt : BitVec 6
  /-- `DIR`: 0 encryption, 1 decryption (R31). -/
  dir : BitVec 1
  /-- `BI`: the block index of a stream command (R32). -/
  bi : Nat
deriving DecidableEq, Repr

/-- The transient registers between commands: unspecified (R33), so free values, the `n`-th ones (log 7). -/
def Seq.unspecified (n : Nat) : Seq :=
  ⟨Config.freeA n, Config.freeB n, Config.freeCnt n, Config.freeDir n, Config.freeBi n⟩

/-- What a host read can name (10_state R26, R30 to R32). -/
inductive HostReg where
  | k (i : Fin 8) | kin (i : Fin 8) | acc | sk | res | blk | status
  | ilen | ibuf (addr : Nat) | olen | obuf (addr : Nat)
  | sbox (t : Fin 8) (n : Nibble)
  | a | b | cnt | dir | bi
deriving DecidableEq, Repr

/-- What a host write can present: a place and a value of its width (10_state R26, R30 to R32). -/
inductive HostWrite where
  | k (i : Fin 8) (v : Word) | kin (i : Fin 8) (v : Word) | acc (v : Word) | sk (v : Word) | res (v : Word)
  | blk (v : Block) | status (v : Word)
  | ilen (n : Nat) | ibuf (addr : Nat) (v : Byte) | olen (n : Nat) | obuf (addr : Nat) (v : Byte)
  | sbox (t : Fin 8) (n : Nibble) (v : Nibble)
  | a (v : Word) | b (v : Word) | cnt (v : BitVec 6) | dir (v : BitVec 1) | bi (n : Nat)
deriving DecidableEq, Repr

/-- What a host read returns: a number of the register's width (20_memory R63), a byte, or a length. -/
inductive HostValue where
  | word (v : Word) | block (v : Block) | byte (v : Byte) | length (n : Nat)
deriving DecidableEq, Repr

/-- One action of the host (00_scope R14; 30_encoding R90, R92; 70_reset_and_hazards R220). -/
inductive HostAction where
  /-- Present a command word on the command port (R90). -/
  | command (cw : Word)
  /-- `HOST reg <- value` (R92, R99). -/
  | write (w : HostWrite)
  /-- `HOST read reg` (R92, R99). -/
  | read (r : HostReg)
  /-- `RESET` (R220). -/
  | reset
deriving DecidableEq, Repr

/-- The MODEL's counters behind the free values (log 4): each is advanced where the bytes or registers it keys become
unspecified anew. -/
structure Free where
  /-- Resets so far: keys the bytes of IBUF that nothing has written since. -/
  epoch : Nat
  /-- Values the transient registers have taken: keys the next. -/
  seq : Nat
  /-- Writes to IBUF bytes and resets: keys host reads of IBUF at or beyond ILEN. -/
  ibuf : Nat
  /-- Completed stream commands and resets: keys the bytes of OBUF at or beyond OLEN. -/
  obuf : Nat
deriving DecidableEq, Repr

structure State where
  /-- `K[0..7]`, the Key (R21). -/
  k : KeyWords
  /-- `KIN[0..7]`, the key staging registers (R22). -/
  kin : KeyWords
  /-- `ACC` (R23). -/
  acc : Word
  /-- `SK` (R23). -/
  sk : Word
  /-- `RES` (R24). -/
  res : Word
  /-- `BLK` (R25). -/
  blk : Block
  /-- `STATUS` (R36); its fields are read through Machine/Flags.lean. -/
  status : Word
  /-- `IBUF` (R45). -/
  ibuf : Memory
  /-- `ILEN` (R45). -/
  ilen : Nat
  /-- `OBUF` (R46). -/
  obuf : Memory
  /-- `OLEN` (R46). -/
  olen : Nat
  /-- `A`, `B`, `CNT`, `DIR`, `BI` (R30 to R33). -/
  seq : Seq
  /-- `SBOX` (R20 (a), R42): configuration, written by nothing. -/
  sbox : SBox
  /-- The MODEL's: the host's actions still to come, first first (log 2). -/
  port : List HostAction
  /-- The MODEL's: what the most recent host read returned, or none (log 3). -/
  hostOut : Option HostValue
  /-- The MODEL's: the counters behind the free values (log 4). -/
  free : Free
deriving DecidableEq, Repr

/-- No constructor: no step stops the machine. An error of the engine is a state, `STATUS.ERR` not 0, in which the
host can still read, write and reset (60_exceptions R193, R194), and no command can hang (70_reset_and_hazards
R235). Log 10. -/
inductive Fault where
deriving DecidableEq, Repr

/-- The one refusal there is. -/
inductive Refusal where
  /-- Raised by an arm of `exec` that has no meaning yet, with the instruction's mnemonic; no arm raises it now. Safe. -/
  | notModelled (mnemonic : String)
deriving DecidableEq, Repr

/-- Every piece of state as reset leaves it (10_state R55), for a table set, the outcome of its validation, and what
reset does not touch or has to make fresh: the host's side and the counters of free values. -/
def State.resetValues (sbox : SBox) (tblOk : Bool) (port : List HostAction) (hostOut : Option HostValue)
    (free : Free) : State where
  k := Vector.replicate 8 0
  kin := Vector.replicate 8 0
  acc := 0
  sk := 0
  res := 0
  blk := 0
  status := Status.pack tblOk false (if tblOk then 0 else ErrKind.malformedTable.code)
  ibuf := []
  ilen := 0
  obuf := []
  olen := 0
  seq := Seq.unspecified free.seq
  sbox := sbox
  port := port
  hostOut := hostOut
  free := { free with seq := free.seq + 1 }

/-- The machine right after reset (70_reset_and_hazards R220), idle, with no host action pending, for the table set
`Config.sbox`, which is valid by its type (10_state R43; Laws/State.lean proves it), so that TBL_OK is 1 and ERR 0. -/
def State.reset : State := State.resetValues Config.sbox true [] none ⟨0, 0, 0, 0⟩

end Sys2Proof.Machine
end

