-- ==== Sys2Proof/Machine/Ops.lean ====
section
/-! DEFINITION. The named operations over the state: the byte memories, the two buffers, STATUS, raising an error
(60_exceptions R193), the frame every command runs in (30_encoding R91), host accesses (10_state R26, R27) and reset
(70_reset_and_hazards R220). -/

namespace Sys2Proof.Machine

/-! ### Byte memories -/

/-- The canonical form: addresses strictly rising. -/
abbrev Memory.wf (m : Memory) : Prop := m.Pairwise fun x y => x.1 < y.1

/-- The byte a memory lists at an address, if it lists one. -/
def Memory.find : Memory → Nat → Option Byte
  | [], _ => none
  | (b, v) :: m, a => if b = a then some v else Memory.find m a

/-- Write one byte, keeping the addresses strictly rising. -/
def Memory.store : Memory → Nat → Byte → Memory
  | [], a, v => [(a, v)]
  | (b, w) :: m, a, v =>
    if a < b then (a, v) :: (b, w) :: m
    else if a = b then (a, v) :: m
    else (b, w) :: Memory.store m a v

/-- Write a sequence of bytes at rising addresses from `a` on. -/
def Memory.storeBytes (m : Memory) (a : Nat) : List Byte → Memory
  | [] => m
  | v :: vs => Memory.storeBytes (Memory.store m a v) (a + 1) vs

/-- Forget every byte at or beyond an address. -/
def Memory.below (m : Memory) (n : Nat) : Memory := m.filter fun c => c.1 < n

/-! ### The buffers -/

/-- The byte of IBUF the engine reads at an address below ILEN (10_state R45): the one last written, or, if nothing
has written it since reset, a free value (R55, 93 U16; log 5). -/
def State.inputByte (s : State) (a : Nat) : Byte :=
  (s.ibuf.find a).getD (Config.unwrittenByte s.free.epoch a)

/-- The byte of OBUF at an address: the one the engine last wrote, or, where none has a meaning, a free value
(10_state R46, R55, 93 U16; log 6). -/
def State.outputByte (s : State) (a : Nat) : Byte :=
  (s.obuf.find a).getD (Config.strayOutputByte s.free.obuf a)

/-- `IBUF[0 : ILEN]`, the input byte sequence of a stream command (44_ecb_processor, opening). -/
def State.inputBytes (s : State) : List Byte := (List.range s.ilen).map s.inputByte

/-- `OBUF[0 : OLEN]`, its result (10_state R46). -/
def State.outputBytes (s : State) : List Byte := (List.range s.olen).map s.outputByte

/-- `PadByte(a)` (44_ecb_processor R175): a byte of the input, or zero at and beyond ILEN, which is not read. -/
def State.padByte (s : State) (a : Nat) : Byte := if a < s.ilen then s.inputByte a else 0

/-- `MemRead(addr, 8)` of IBUF (00_scope R10). -/
def State.memRead (s : State) (addr : Nat) : Block :=
  fromLe64 ((List.range 8).map fun i => s.inputByte (addr + i))

/-- The 8-byte chunk at `addr` of the padded input (44_ecb_processor R175): read whole where it lies below ILEN. -/
def State.paddedRead (s : State) (addr : Nat) : Block :=
  if addr + 8 ≤ s.ilen then s.memRead addr else fromLe64 ((List.range 8).map fun i => s.padByte (addr + i))

/-- `MemWrite(addr, 8, v)` to OBUF (00_scope R10). -/
def State.memWrite (s : State) (addr : Nat) (v : Block) : State :=
  { s with obuf := s.obuf.storeBytes addr (le64 v) }

/-! ### STATUS, errors, and the frame of a command -/

/-- `STATUS.KEY_OK` (10_state R38). -/
def State.keyOk (s : State) : Bool := Status.keyOk s.status

/-- `STATUS.TBL_OK` (10_state R37). -/
def State.tblOk (s : State) : Bool := Status.tblOk s.status

/-- `STATUS.ERR` (10_state R39). -/
def State.err (s : State) : BitVec 3 := Status.err s.status

/-- The fault state: ERR is not 0 (60_exceptions R194). -/
def State.inFault (s : State) : Bool := s.err != 0#3

/-- `raise E` (60_exceptions R193): record the kind in ERR, change nothing else. -/
def State.raise (s : State) (e : ErrKind) : State := { s with status := Status.setErr s.status e.code }

/-- The frame every command runs in (30_encoding R91, steps 1, 3 and 4): refused with no change in the fault state
(60_exceptions R194); KeyNotLoaded if it reads the key and none is loaded (R200); else its own rule. Decoding, step
2, stands in Step.lean. -/
def runCommand (readsKey : Bool) (s : State) (body : State → State) : Host.Outcome State Fault Refusal :=
  .next (if s.inFault then s else if readsKey && !s.keyOk then s.raise .keyNotLoaded else body s)

/-- The end of a block operation: A, B, CNT and DIR are unspecified from here on (10_state R33; log 7). BI, which a
block command does not write (43_feistel_network R155, R156), stays. -/
def State.releasePair (s : State) : State :=
  { s with
    seq := { Seq.unspecified s.free.seq with bi := s.seq.bi }
    free := { s.free with seq := s.free.seq + 1 } }

/-- The end of a stream command for the transient registers, BI too: all are unspecified from here on (10_state R33;
log 7). -/
def State.releaseSeq (s : State) : State :=
  { s with seq := Seq.unspecified s.free.seq, free := { s.free with seq := s.free.seq + 1 } }

/-- The end of a stream command: OLEN is the length of the result, and the bytes of OBUF at and beyond it have no
meaning any more (10_state R46; log 6). -/
def State.finishStream (s : State) (n : Nat) : State :=
  { s with obuf := s.obuf.below n, olen := n, free := { s.free with obuf := s.free.obuf + 1 } }.releaseSeq

/-! ### The host -/

/-- The state with these host actions pending. -/
def State.withPort (s : State) (acts : List HostAction) : State := { s with port := acts }

/-- A host write (10_state R26). A write to a register the host may not write has no effect (R27). -/
def State.hostWrite (s : State) : HostWrite → State
  | .kin i v => { s with kin := s.kin.set i v }
  | .acc v => { s with acc := v }
  | .sk v => { s with sk := v }
  | .blk v => { s with blk := v }
  | .ilen n => { s with ilen := n }
  | .ibuf a v => { s with ibuf := s.ibuf.store a v, free := { s.free with ibuf := s.free.ibuf + 1 } }
  | .k _ _ | .res _ | .status _ | .olen _ | .obuf _ _ | .sbox _ _ _ => s
  | .a _ | .b _ | .cnt _ | .dir _ | .bi _ => s

/-- What a host read returns (10_state R26): none for a register the host may not read (R27). A byte of a buffer at
or beyond its length has no meaning and is a free value (R45, R46, 93 U16; log 5, log 6). -/
def State.hostRead (s : State) : HostReg → Option HostValue
  | .kin i => some (.word s.kin[i])
  | .acc => some (.word s.acc)
  | .sk => some (.word s.sk)
  | .res => some (.word s.res)
  | .blk => some (.block s.blk)
  | .status => some (.word s.status)
  | .ilen => some (.length s.ilen)
  | .ibuf a => some (.byte (if a < s.ilen then s.inputByte a else Config.strayInputByte s.free.ibuf a))
  | .olen => some (.length s.olen)
  | .obuf a => some (.byte (if a < s.olen then s.outputByte a else Config.strayOutputByte s.free.obuf a))
  | .k _ | .sbox _ _ | .a | .b | .cnt | .dir | .bi => none

/-- Reset, the host action (70_reset_and_hazards R220): every register and length takes its value of 10_state R55,
the tables, which it leaves as they are, are validated, and MalformedTable is recorded if they fail
(60_exceptions R195). The bytes of the buffers and the transient registers become unspecified anew. -/
def State.hostReset (s : State) : State :=
  State.resetValues s.sbox (tablesValid s.sbox) s.port s.hostOut
    { s.free with epoch := s.free.epoch + 1, ibuf := s.free.ibuf + 1, obuf := s.free.obuf + 1 }

end Sys2Proof.Machine
end

