-- ==== Sys2Proof/Machine/KeySchedule.lean ====
section
/-! DEFINITION. Family 3, the key schedule (42_key_schedule): its function, SUBKEY and LDKEY. -/

namespace Sys2Proof.Machine

/-- The index of the key word that serves round `r` (R140). -/
def keyIndex (r : Nat) : Fin 8 := if r < 24 then Fin.ofNat 8 (r % 8) else Fin.ofNat 8 (7 - r % 8)

/-- `subkeyForRound(r, key)` (R140). -/
def subkeyForRound (r : Nat) (key : KeyWords) : Word := key[keyIndex r]

/-- `SUBKEY r` (R142). -/
def execSubkey (r : Nat) (s : State) : Host.Outcome State Fault Refusal :=
  runCommand true s fun s =>
    if roundLegal r then { s with res := subkeyForRound r s.k } else s.raise .invalidIndex

/-- `LDKEY n` (R143). KIN is read only if `n` is 8. -/
def execLdkey (n : Nat) (s : State) : Host.Outcome State Fault Refusal :=
  runCommand false s fun s =>
    if keyLengthLegal n then { s with k := s.kin, status := Status.setKeyOk s.status }
    else s.raise .invalidKeyLength

end Sys2Proof.Machine
end

