-- ==== Sys2Proof/Machine/RoundTransform.lean ====
section
/-! DEFINITION. Family 2, the round transform (41_round_transform): its function and XFORM. -/

namespace Sys2Proof.Machine

/-- Step 2 of `transform` (R130): table `j` serves nibble position `j`, and the entry goes to the same position. -/
def substituteNibbles (sbox : SBox) (sum : Word) : Word :=
  (List.finRange 8).foldl
    (fun acc j => acc ||| ((substitute sbox j (nibbleAt sum j)).setWidth 32 <<< (4 * j.val))) 0

/-- `transform(acc, sk)` (R130): add modulo 2^32, substitute each nibble, rotate left by 11. -/
def transform (sbox : SBox) (acc sk : Word) : Word := rotl32 (substituteNibbles sbox (acc + sk)) 11

/-- `XFORM` (R131). It needs no key and has no error of its own. -/
def execXform (s : State) : Host.Outcome State Fault Refusal :=
  runCommand false s fun s => { s with res := transform s.sbox s.acc s.sk }

end Sys2Proof.Machine
end

