-- ==== Sys2Proof/Machine/Feistel.lean ====
section
/-! DEFINITION. Family 4, the 32-round Feistel network (43_feistel_network): the block functions as folds (R150 to
R154), the sequencer on the transient registers (R157, 10_state R30, R31), and ENCBLK and DECBLK, which run the
sequencer. -/

namespace Sys2Proof.Machine

/-- One round (R150): both new values are computed from the old pair. -/
def feistelRound (sbox : SBox) (p : Word × Word) (x : Word) : Word × Word :=
  (p.2 ^^^ transform sbox p.1 x, p.1)

/-- The split of a block into the running pair (R151). -/
def split (b : Block) : Word × Word := (highHalf b, lowHalf b)

/-- The pack of the final pair (R154): `(B << 32) | A`. -/
def pack (p : Word × Word) : Block := (p.2.setWidth 64 <<< 32) ||| p.1.setWidth 64

/-- The rounds of a block operation, over a list of round indices (R152, R153). -/
def runRounds (sbox : SBox) (key : KeyWords) (rounds : List Nat) (p : Word × Word) : Word × Word :=
  rounds.foldl (fun p r => feistelRound sbox p (subkeyForRound r key)) p

/-- `encryptBlock(b, key)` (R152): the round index ascends from 0 to 31. -/
def encryptBlock (sbox : SBox) (key : KeyWords) (b : Block) : Block :=
  pack (runRounds sbox key (List.range 32) (split b))

/-- `decryptBlock(b, key)` (R153): the round index descends from 31 to 0. -/
def decryptBlock (sbox : SBox) (key : KeyWords) (b : Block) : Block :=
  pack (runRounds sbox key (List.range 32).reverse (split b))

/-! ### The sequencer -/

/-- `DIR` for encryption (10_state R31). -/
def dirEncrypt : BitVec 1 := 0

/-- `DIR` for decryption (10_state R31). -/
def dirDecrypt : BitVec 1 := 1

/-- `RND`, the round index, a function of CNT and DIR (10_state R31). -/
def Seq.round (q : Seq) : Nat := if q.dir = 0 then q.cnt.toNat else 31 - q.cnt.toNat

/-- `start(b, dir)` (R157). -/
def State.seqStart (s : State) (b : Block) (dir : BitVec 1) : State :=
  { s with seq := { s.seq with a := highHalf b, b := lowHalf b, cnt := 0, dir := dir } }

/-- `step` (R157), enabled while CNT < 32. -/
def State.seqStep (s : State) : State :=
  if s.seq.cnt < 32 then
    let p := feistelRound s.sbox (s.seq.a, s.seq.b) (subkeyForRound s.seq.round s.k)
    { s with seq := { s.seq with a := p.1, b := p.2, cnt := s.seq.cnt + 1 } }
  else s

/-- `n` steps of the sequencer. -/
def State.seqSteps : Nat → State → State
  | 0, s => s
  | n + 1, s => State.seqSteps n s.seqStep

/-- `finish` (R157): the result of a block operation. -/
def State.seqResult (s : State) : Block := pack (s.seq.a, s.seq.b)

/-- A block operation in the transient registers: start, and the 32 steps after which CNT is 32 (R157). -/
def State.runBlock (s : State) (b : Block) (dir : BitVec 1) : State := State.seqSteps 32 (s.seqStart b dir)

/-- A block operation from BLK to BLK (R155, R156). -/
def State.blockCommand (s : State) (dir : BitVec 1) : State :=
  let t := s.runBlock s.blk dir
  { t with blk := t.seqResult }.releasePair

/-- `ENCBLK` (R155). -/
def execEncblk (s : State) : Host.Outcome State Fault Refusal :=
  runCommand true s fun s => s.blockCommand dirEncrypt

/-- `DECBLK` (R156). -/
def execDecblk (s : State) : Host.Outcome State Fault Refusal :=
  runCommand true s fun s => s.blockCommand dirDecrypt

end Sys2Proof.Machine
end

