-- ==== Sys2Proof/Machine/EcbProcessor.lean ====
section
/-! DEFINITION. Family 5, the ECB block processor and padder (44_ecb_processor): the stream functions (R171, R173),
the block loop on the buffers and BI (10_state R32; R175, R176), and ENCSTR and DECSTR, which run the loop. -/

namespace Sys2Proof.Machine

/-- A byte sequence of `n` blocks, each taken little-endian, put through `f`, and stored little-endian
(20_memory R61). -/
def mapBlocks (f : Block → Block) : Nat → List Byte → List Byte
  | 0, _ => []
  | n + 1, p => le64 (f (fromLe64 (p.take 8))) ++ mapBlocks f n (p.drop 8)

/-- `encryptStream(d, key)` (R171). -/
def encryptStream (sbox : SBox) (key : KeyWords) (d : List Byte) : List Byte :=
  let p := d ++ zeros (padLength d.length)
  mapBlocks (encryptBlock sbox key) (p.length / 8) p

/-- `decryptStream(d, key)` (R173), for a length that is a multiple of 8 (R172). -/
def decryptStream (sbox : SBox) (key : KeyWords) (d : List Byte) : List Byte :=
  stripZeros (mapBlocks (decryptBlock sbox key) (d.length / 8) d)

/-! ### The block loop -/

/-- One block of a stream command, at byte offset `8*BI` in both buffers (20_memory R64): run the sequencer on the
chunk, write the result, count BI up (10_state R32). -/
def State.streamBlock (s : State) (chunk : Block) (dir : BitVec 1) : State :=
  let t := (s.runBlock chunk dir).memWrite (8 * s.seq.bi) (s.runBlock chunk dir).seqResult
  { t with seq := { t.seq with bi := s.seq.bi + 1 } }

/-- The remaining `n` blocks of ENCSTR (R175). -/
def State.encryptBlocks : Nat → State → State
  | 0, s => s
  | n + 1, s => State.encryptBlocks n (s.streamBlock (s.paddedRead (8 * s.seq.bi)) dirEncrypt)

/-- The remaining `n` blocks of DECSTR (R176). -/
def State.decryptBlocks : Nat → State → State
  | 0, s => s
  | n + 1, s => State.decryptBlocks n (s.streamBlock (s.memRead (8 * s.seq.bi)) dirDecrypt)

/-- `BI <- 0` (10_state R32). -/
def State.startStream (s : State) : State := { s with seq := { s.seq with bi := 0 } }

/-- The trailing-zero scan of DECSTR, over the bytes just written (R176): the length left of the first `n`. -/
def State.scanZeros (s : State) : Nat → Nat
  | 0 => 0
  | n + 1 => if s.outputByte n = 0 then s.scanZeros n else n + 1

/-- `ENCSTR` (R175): `NB = (ILEN + pad) / 8` blocks. It has no error of its own. -/
def execEncstr (s : State) : Host.Outcome State Fault Refusal :=
  runCommand true s fun s =>
    (State.encryptBlocks ((s.ilen + padLength s.ilen) / 8) s.startStream).finishStream (s.ilen + padLength s.ilen)

/-- `DECSTR` (R176): the length is checked before any block is read (R172). -/
def execDecstr (s : State) : Host.Outcome State Fault Refusal :=
  runCommand true s fun s =>
    if s.ilen % 8 = 0 then
      let t := State.decryptBlocks (s.ilen / 8) s.startStream
      t.finishStream (t.scanZeros s.ilen)
    else s.raise .invalidCiphertextLength

end Sys2Proof.Machine
end

