-- ==== Sys2Proof/Machine/SboxSet.lean ====
section
/-! DEFINITION. Family 1, the substitution table set (40_sbox_set): SUBST. Its function `substitute` stands in
Operands.lean. -/

namespace Sys2Proof.Machine

/-- `SUBST t, n` (R122). It needs no key. -/
def execSubst (t n : Nat) (s : State) : Host.Outcome State Fault Refusal :=
  runCommand false s fun s =>
    if substOperandsLegal t n then
      { s with res := (substitute s.sbox (Fin.ofNat 8 t) (BitVec.ofNat 4 n)).setWidth 32 }
    else s.raise .invalidIndex

end Sys2Proof.Machine
end

