-- ==== Sys2Proof/Machine/Dispatch.lean ====
section
/-! DEFINITION. The dispatch of a decoded command to its meaning (30_encoding R95), one arm per constructor. -/

namespace Sys2Proof.Machine

def exec (i : Instr) (s : State) : Host.Outcome State Fault Refusal :=
  match i with
  | .ldkey n => Sys2Proof.Machine.execLdkey n s
  | .subst t n => Sys2Proof.Machine.execSubst t n s
  | .xform => Sys2Proof.Machine.execXform s
  | .subkey r => Sys2Proof.Machine.execSubkey r s
  | .encblk => Sys2Proof.Machine.execEncblk s
  | .decblk => Sys2Proof.Machine.execDecblk s
  | .encstr => Sys2Proof.Machine.execEncstr s
  | .decstr => Sys2Proof.Machine.execDecstr s

end Sys2Proof.Machine
end

