-- ==== Sys2Proof/Machine/Port.lean ====
section
/-! DEFINITION. What the engine does with one action of the host (30_encoding R90 to R92, 70_reset_and_hazards R220):
the body of the step, which Step.lean calls. -/

namespace Sys2Proof.Machine

/-- An undecodable word (30_encoding R91, R97): refused in the fault state, else IllegalCommand. -/
def illegalCommand (s : State) : Host.Outcome State Fault Refusal :=
  runCommand false s fun s => s.raise .illegalCommand

/-- A command word (30_encoding R91). The fault state is tested before anything the word decodes to, in
`runCommand`, which both branches go through. -/
def takeCommand (cw : Word) (s : State) : Host.Outcome State Fault Refusal :=
  match decode cw with
  | .command i => exec i s
  | .illegal _ => illegalCommand s

/-- One host action on the state that no longer has it pending. -/
def takeAction (act : HostAction) (s : State) : Host.Outcome State Fault Refusal :=
  match act with
  | .command cw => takeCommand cw s
  | .write w => .next (s.hostWrite w)
  | .read r => .next { s with hostOut := s.hostRead r }
  | .reset => .next s.hostReset

/-- The engine's next move: take the first pending action, or, with none pending, stay idle and keep all state
(60_exceptions R215, 70_reset_and_hazards R220). -/
def takeNext (s : State) : Host.Outcome State Fault Refusal :=
  match s.port with
  | [] => .next s
  | act :: rest => takeAction act (s.withPort rest)

/-- Present a command word before everything else that is pending. -/
def State.present (s : State) (cw : Word) : State := s.withPort (.command cw :: s.port)

end Sys2Proof.Machine
end

