-- ==== Sys2Proof/Machine/Step.lean ====
section
/-! DEFINITION. One step of the machine, and the placing of an instruction where the step takes it next. -/

namespace Sys2Proof.Machine

/-- One step: the engine takes the next pending action of the host (30_encoding R91, R92; log 2). -/
def step (s : State) : Host.Outcome State Fault Refusal := takeNext s

/-- The state with the word of an opcode-table row presented on the command port (30_encoding R90), so that the
next step runs it. -/
def State.withFetchWord (s : State) (nbits w : Nat) : State := s.present (tableWord nbits w)

end Sys2Proof.Machine
end

