-- ==== Sys2Proof/Safety.lean ====
section
/-! DEFINITION. What holds of every state a run from reset reaches: the invariant the statements use where a claim
could fail only in states no run reaches. The conditions under which a
command has its effect, and the errors of the commands, are named here too. -/

namespace Sys2Proof.Machine

/-- A command may execute: the engine is not in the fault state (60_exceptions R194). -/
abbrev State.Ready (s : State) : Prop := s.err = 0#3

/-- A command that reads the key may execute: not in the fault state, and a key is loaded (30_encoding R91). -/
abbrev State.ReadyWithKey (s : State) : Prop := s.err = 0#3 ∧ s.keyOk = true

/-- The commands that read K (30_encoding R91, step 3). -/
def readsKey : Instr → Bool
  | .subkey _ | .encblk | .decblk | .encstr | .decstr => true
  | .ldkey _ | .subst _ _ | .xform => false

/-- The error a command raises by its own check, if any (60_exceptions R190, R202 item 4). -/
def ownError (i : Instr) (s : State) : Option ErrKind :=
  match i with
  | .ldkey n => if n = 8 then none else some .invalidKeyLength
  | .subst t n => if t > 7 ∨ n > 15 then some .invalidIndex else none
  | .subkey r => if r > 31 then some .invalidIndex else none
  | .decstr => if s.ilen % 8 = 0 then none else some .invalidCiphertextLength
  | .xform | .encblk | .decblk | .encstr => none

/-- STATUS is well formed (10_state R36 to R39): reserved bits read 0, ERR is a code that exists, TBL_OK is the outcome
of the validation, and TBL_OK = 0 comes with ERR = 1, which nothing else produces. -/
structure State.StatusInv (s : State) : Prop where
  reserved : Status.reserved s.status = 0
  errCode : s.err ≠ 7#3
  tables : s.tblOk = tablesValid s.sbox
  malformed : s.tblOk = false ↔ s.err = ErrKind.malformedTable.code

/-- No key, no key words: K is still as reset left it while KEY_OK is 0 (10_state R38, R55). -/
def State.KeyInv (s : State) : Prop := s.keyOk = false → s.k = Vector.replicate 8 0

/-- Both buffers are in canonical form, and OBUF has a specified byte exactly at the addresses below OLEN
(10_state R46). -/
structure State.BufferInv (s : State) : Prop where
  input : s.ibuf.wf
  output : s.obuf.wf
  outputListed : ∀ a, (s.obuf.find a).isSome = true ↔ a < s.olen

/-- The invariant of the machine. -/
structure State.Inv (s : State) : Prop where
  status : s.StatusInv
  key : s.KeyInv
  buffers : s.BufferInv

end Sys2Proof.Machine
end

