-- ==== Sys2Proof/Certificates/Slice0/Obligations.lean ====
section
/-! DEFINITION. The statements for the provers. Each formalises rules of spec/ named in its docstring. The fault state
is `err ≠ 0`; error codes are those of 10_state R39; `withPort` replaces the pending host actions alone and
`Status.setErr` the ERR field alone (StatusLayout). -/

open Sys2Proof Sys2Proof.Machine

/-! ### Encoding -/

/-- 30_encoding section 3: encoding a command and decoding the word gives the command, with every operand value a
field admits. -/
def Obligations.EncodeThenDecodeGivesCommand : Prop :=
  ∀ i : Instr, i.WellFormed → decode (encode i) = .command i

/-- 30_encoding section 3: a word that decodes is the word of the command it decodes to, so no word is an alias. -/
def Obligations.DecodedWordIsTheEncoding : Prop :=
  ∀ (cw : Word) (i : Instr), decode cw = .command i → i.WellFormed ∧ encode i = cw

/-- 30_encoding section 3: the decoder agrees with the match and mask columns of the opcode table, and an operand
is the unsigned value of its field. -/
def Obligations.DecoderAgreesWithOpcodeTable : Prop :=
  ∀ cw : Word,
    (cw &&& 0xFFFFFF00 = 0x01000000 ↔ decode cw = .command (.ldkey (cw.toNat % 256))) ∧
    (cw &&& 0xFFFF0000 = 0x10000000 ↔ decode cw = .command (.subst (cw.toNat / 256 % 256) (cw.toNat % 256))) ∧
    (cw &&& 0xFFFFFFFF = 0x11000000 ↔ decode cw = .command .xform) ∧
    (cw &&& 0xFFFFFF00 = 0x12000000 ↔ decode cw = .command (.subkey (cw.toNat % 256))) ∧
    (cw &&& 0xFFFFFFFF = 0x20000000 ↔ decode cw = .command .encblk) ∧
    (cw &&& 0xFFFFFFFF = 0x21000000 ↔ decode cw = .command .decblk) ∧
    (cw &&& 0xFFFFFFFF = 0x30000000 ↔ decode cw = .command .encstr) ∧
    (cw &&& 0xFFFFFFFF = 0x31000000 ↔ decode cw = .command .decstr)

/-- 30_encoding section 6 and 95_test_vectors section 7: words written out in the spec decode to what they stand
for. -/
def Obligations.WordsOfTheSpecDecode : Prop :=
  decode 0x01000008 = .command (.ldkey 8) ∧ decode 0x1000030A = .command (.subst 3 10) ∧
  decode 0x11000000 = .command .xform ∧ decode 0x12000018 = .command (.subkey 24) ∧
  decode 0x20000000 = .command .encblk ∧ decode 0x21000000 = .command .decblk ∧
  decode 0x30000000 = .command .encstr ∧ decode 0x31000000 = .command .decstr

/-- R97, R199: the Illegal words are exactly those with an undefined opcode or a non-zero bit where the format
requires zero, and outside the fault state each raises IllegalCommand. -/
def Obligations.IllegalWordsRaiseIllegalCommand : Prop :=
  (∀ cw : Word, (∃ why, decode cw = .illegal why) ↔
    (opField cw ∉ [0x01, 0x10, 0x11, 0x12, 0x20, 0x21, 0x30, 0x31] ∨ rsvField cw ≠ 0 ∨
      (opField cw ∈ [0x01, 0x12] ∧ imm1Field cw ≠ 0) ∨
      (opField cw ∈ [0x11, 0x20, 0x21, 0x30, 0x31] ∧ (imm1Field cw ≠ 0 ∨ imm0Field cw ≠ 0)))) ∧
  (∃ why, decode 0x00000000 = .illegal why) ∧
  (∃ why, decode 0xFFFFFFFF = .illegal why) ∧
  (∀ (s : State) (cw : Word) (why : IllegalWord) (rest : List HostAction),
    s.Ready → s.port = .command cw :: rest → decode cw = .illegal why →
    step s = .next { s with port := rest, status := Status.setErr s.status 5 })

/-! ### The step, the fault state and the errors -/

/-- 30_encoding section 1: a step whose pending action is a command word that decodes runs that command on the state
from which the word has been taken. -/
def Obligations.StepRunsTheDecodedCommand : Prop :=
  ∀ (s : State) (cw : Word) (i : Instr) (rest : List HostAction),
    s.port = .command cw :: rest → decode cw = .command i → step s = exec i (s.withPort rest)

/-- 60_exceptions section 7, 70_reset_and_hazards section 1: with no host action pending the engine keeps all its
state. That the host's pending actions are a list in State is the model's choice, log 2. -/
def Obligations.IdleEngineKeepsItsState : Prop :=
  ∀ s : State, s.port = [] → step s = .next s

/-- R194: in the fault state every command word, legal or not, and every command changes nothing but the port it is
taken from; host reads and writes still work; and nothing but reset changes ERR. -/
def Obligations.FaultStateLastsUntilReset : Prop :=
  ∀ s : State, s.err ≠ 0#3 →
    (∀ i, exec i s = .next s) ∧
    (∀ cw rest, s.port = .command cw :: rest → step s = .next (s.withPort rest)) ∧
    (∀ w rest, s.port = .write w :: rest → step s = .next ((s.withPort rest).hostWrite w)) ∧
    (∀ r rest, s.port = .read r :: rest → step s = .next { s with port := rest, hostOut := s.hostRead r }) ∧
    (∀ t, step s = .next t → s.port.head? ≠ some .reset → t.err = s.err) ∧
    (∀ rest, s.port = .reset :: rest → tablesValid s.sbox = true → ∃ t, step s = .next t ∧ t.err = 0#3)

/-- R202: the one error a command word leaves recorded, in the fixed order of priority. -/
def Obligations.ErrorPriority : Prop :=
  ∀ (s : State) (cw : Word) (rest : List HostAction), s.port = .command cw :: rest →
    ∃ t, step s = .next t ∧
      t.err =
        if s.err ≠ 0#3 then s.err
        else
          match decode cw with
          | .illegal _ => 5#3
          | .command i =>
            if readsKey i = true ∧ s.keyOk = false then 6#3
            else
              match ownError i s with
              | some e => e.code
              | none => 0#3

/-- 60_exceptions section 2: an error is precise: a command word that raises one changes the ERR field and nothing
else (but the port the word is taken from). -/
def Obligations.ErrorsArePrecise : Prop :=
  ∀ (s t : State) (cw : Word) (rest : List HostAction),
    s.port = .command cw :: rest → s.err = 0#3 → step s = .next t → t.err ≠ 0#3 →
      t = { s with port := rest, status := Status.setErr s.status t.err }

/-- R196, R197, R198, R200: what each error code of a command is caused by, and by nothing else; no command raises
MalformedTable, IllegalCommand or code 7; and a command that raises one puts out no partial result. -/
def Obligations.EachErrorHasItsCause : Prop :=
  ∀ (i : Instr) (s t : State), s.err = 0#3 → exec i s = .next t →
    (t.err = 2#3 ↔ ∃ n, i = .ldkey n ∧ n ≠ 8) ∧
    (t.err = 3#3 ↔ i = .decstr ∧ s.keyOk = true ∧ s.ilen % 8 ≠ 0) ∧
    (t.err = 4#3 ↔ (∃ a b, i = .subst a b ∧ (a > 7 ∨ b > 15)) ∨ (∃ r, i = .subkey r ∧ s.keyOk = true ∧ r > 31)) ∧
    (t.err = 6#3 ↔ s.keyOk = false ∧ ((∃ r, i = .subkey r) ∨ i = .encblk ∨ i = .decblk ∨ i = .encstr ∨ i = .decstr)) ∧
    t.err ≠ 1#3 ∧ t.err ≠ 5#3 ∧ t.err ≠ 7#3 ∧
    (t.err ≠ 0#3 → t = { s with status := Status.setErr s.status t.err })

/-- 10_state section 5: where the fields of STATUS lie, and what writing ERR and setting KEY_OK leave alone. -/
def Obligations.StatusLayout : Prop :=
  (∀ st : Word, st.toNat =
    (Status.tblOk st).toNat + 2 * (Status.keyOk st).toNat + 4 * (Status.err st).toNat
      + 32 * (Status.reserved st).toNat) ∧
  (∀ (st : Word) (e : BitVec 3),
    Status.err (Status.setErr st e) = e ∧ Status.tblOk (Status.setErr st e) = Status.tblOk st ∧
    Status.keyOk (Status.setErr st e) = Status.keyOk st ∧
    Status.reserved (Status.setErr st e) = Status.reserved st) ∧
  (∀ st : Word,
    Status.keyOk (Status.setKeyOk st) = true ∧ Status.tblOk (Status.setKeyOk st) = Status.tblOk st ∧
    Status.err (Status.setKeyOk st) = Status.err st ∧
    Status.reserved (Status.setKeyOk st) = Status.reserved st)

/-! ### SUBST and the table set -/

/-- R122: SUBST. Its word; the entry, zero-extended, in RES and nothing else written; InvalidIndex for an operand out
of range; no key needed; refused in the fault state. -/
def Obligations.SubstCommand : Prop :=
  (∀ cw : Word, cw &&& 0xFFFF0000 = 0x10000000 ↔
    decode cw = .command (.subst (imm1Field cw).toNat (imm0Field cw).toNat)) ∧
  (∀ (s : State) (t : Fin 8) (n : Fin 16), s.Ready →
    exec (.subst t n) s = .next { s with res := ((s.sbox.get t).get n).setWidth 32 }) ∧
  (∀ (s : State) (t n : Nat), s.Ready → t > 7 ∨ n > 15 →
    exec (.subst t n) s = .next { s with status := Status.setErr s.status 4 }) ∧
  (∀ (s : State) (t n : Nat), s.err ≠ 0#3 → exec (.subst t n) s = .next s)

/-- R43: the tables are valid exactly when each is a bijection of 0..15. -/
def Obligations.ValidTablesAreBijections : Prop :=
  ∀ sbox : SBox, tablesValid sbox = true ↔ ∀ t : Fin 8, Function.Bijective fun n : Fin 16 => (sbox.get t).get n

/-- 40_sbox_set section 1: in every state that meets the invariant, outside the fault state the tables are valid and
each is a bijection. The spec marks this as derived (R121, "is the case whenever the engine is not in the fault
state"). -/
def Obligations.TablesAreBijectionsOutsideTheFaultState : Prop :=
  ∀ s : State, s.Inv → s.err = 0#3 →
    tablesValid s.sbox = true ∧ ∀ t : Fin 8, Function.Bijective fun n : Nibble => substitute s.sbox t n

/-- 10_state section 6, 70_reset_and_hazards section 1: no step, host access or reset changes the tables. That the
configuration SBOX stands in State is the model's choice, log 1. -/
def Obligations.NoStepChangesTheTables : Prop :=
  ∀ s t : State, step s = .next t → t.sbox = s.sbox

/-! ### XFORM and the round transform -/

/-- R130: bit `b` of nibble `j` of the substituted sum is bit `(4*j + b + 11) mod 32` of the transform. -/
def Obligations.TransformAddsSubstitutesRotates : Prop :=
  ∀ (sbox : SBox) (acc sk : Word) (j : Fin 8) (b : Fin 4),
    (transform sbox acc sk).getLsbD ((4 * j.val + b.val + 11) % 32) =
      ((sbox.get j).get (Fin.ofNat 16 ((acc.toNat + sk.toNat) % 2 ^ 32 / 16 ^ j.val))).getLsbD b.val

/-- 41_round_transform section 3: (a) with identity tables only the addition and the rotation remain; (b) the
transform is symmetric and depends only on the sum; (c) with valid tables it is a bijection in its first argument.
The spec marks these properties as derived (R133). -/
def Obligations.TransformProperties : Prop :=
  (∀ (sbox : SBox) (acc sk : Word), (∀ (t : Fin 8) (n : Nibble), substitute sbox t n = n) →
    transform sbox acc sk = rotl32 (acc + sk) 11) ∧
  (∀ (sbox : SBox) (acc sk : Word), transform sbox acc sk = transform sbox sk acc) ∧
  (∀ (sbox : SBox) (acc sk acc' sk' : Word), acc + sk = acc' + sk' →
    transform sbox acc sk = transform sbox acc' sk') ∧
  (∀ (sbox : SBox) (sk : Word), tablesValid sbox = true → Function.Bijective fun acc => transform sbox acc sk)

/-- R131: XFORM. Its word; the transform of ACC and SK in RES and nothing else written; no error of its own, no key
needed; refused in the fault state. The last clause is the rule's rotation corner cases. -/
def Obligations.XformCommand : Prop :=
  (∀ cw : Word, decode cw = .command .xform ↔ cw = 0x11000000) ∧
  (∀ s : State, s.Ready → exec .xform s = .next { s with res := transform s.sbox s.acc s.sk }) ∧
  (∀ s : State, s.err ≠ 0#3 → exec .xform s = .next s) ∧
  (rotl32 0x001FFFFF 11 = 0xFFFFF800 ∧ rotl32 0x00200000 11 = 0x00000001 ∧ rotl32 0x80000000 11 = 0x00000400)

/-! ### SUBKEY, LDKEY and the key -/

/-- R140: the key word each round uses. -/
def Obligations.SubkeySchedule : Prop :=
  (∀ (key : KeyWords) (r : Nat), r < 24 → subkeyForRound r key = key.get (Fin.ofNat 8 (r % 8))) ∧
  (∀ (key : KeyWords) (r : Nat), 24 ≤ r → r < 32 → subkeyForRound r key = key.get (Fin.ofNat 8 (7 - r % 8)))

/-- 42_key_schedule section 1: the two sequences of key-word indices, for ascending and for descending rounds. The spec
marks the second as derived (R141). -/
def Obligations.SubkeySequences : Prop :=
  ∀ key : KeyWords,
    (List.range 32).map (fun r => subkeyForRound r key) =
      ([0, 1, 2, 3, 4, 5, 6, 7, 0, 1, 2, 3, 4, 5, 6, 7, 0, 1, 2, 3, 4, 5, 6, 7, 7, 6, 5, 4, 3, 2, 1, 0] : List (Fin 8)).map
        key.get ∧
    (List.range 32).reverse.map (fun r => subkeyForRound r key) =
      ([0, 1, 2, 3, 4, 5, 6, 7, 7, 6, 5, 4, 3, 2, 1, 0, 7, 6, 5, 4, 3, 2, 1, 0, 7, 6, 5, 4, 3, 2, 1, 0] : List (Fin 8)).map
        key.get

/-- R142: SUBKEY. Its word; the subkey in RES and nothing else written; KeyNotLoaded tested first, whatever the round;
InvalidIndex above 31; refused in the fault state. -/
def Obligations.SubkeyCommand : Prop :=
  (∀ cw : Word, cw &&& 0xFFFFFF00 = 0x12000000 ↔ decode cw = .command (.subkey (imm0Field cw).toNat)) ∧
  (∀ (s : State) (r : Nat), s.ReadyWithKey → r ≤ 31 →
    exec (.subkey r) s = .next { s with res := subkeyForRound r s.k }) ∧
  (∀ (s : State) (r : Nat), s.ReadyWithKey → r > 31 →
    exec (.subkey r) s = .next { s with status := Status.setErr s.status 4 }) ∧
  (∀ (s : State) (r : Nat), s.err = 0#3 → s.keyOk = false →
    exec (.subkey r) s = .next { s with status := Status.setErr s.status 6 }) ∧
  (∀ (s : State) (r : Nat), s.err ≠ 0#3 → exec (.subkey r) s = .next s)

/-- R143: LDKEY. Its word; with 8 words presented KIN is copied to K, KEY_OK set and nothing else written; any other
number raises InvalidKeyLength; refused in the fault state. -/
def Obligations.LdkeyCommand : Prop :=
  (∀ cw : Word, cw &&& 0xFFFFFF00 = 0x01000000 ↔ decode cw = .command (.ldkey (imm0Field cw).toNat)) ∧
  (∀ s : State, s.Ready → exec (.ldkey 8) s = .next { s with k := s.kin, status := Status.setKeyOk s.status }) ∧
  (∀ (s : State) (n : Nat), s.Ready → n ≠ 8 →
    exec (.ldkey n) s = .next { s with status := Status.setErr s.status 2 }) ∧
  (∀ (s : State) (n : Nat), s.err ≠ 0#3 → exec (.ldkey n) s = .next s)

/-- R144: no command but LDKEY writes K. -/
def Obligations.OnlyLdkeyWritesTheKey : Prop :=
  ∀ (i : Instr) (s t : State), (∀ n, i ≠ .ldkey n) → exec i s = .next t → t.k = s.k

/-! ### The Feistel network, ENCBLK and DECBLK -/

/-- R150, R151, R154: one round, the split of a block, and the pack of the final pair. -/
def Obligations.RoundSplitAndPack : Prop :=
  (∀ (sbox : SBox) (a b x : Word), feistelRound sbox (a, b) x = (b ^^^ transform sbox a x, a)) ∧
  (∀ blk : Block, (split blk).1.toNat = blk.toNat / 2 ^ 32 ∧ (split blk).2.toNat = blk.toNat % 2 ^ 32) ∧
  (∀ a b : Word, (pack (a, b)).toNat = b.toNat * 2 ^ 32 + a.toNat)

/-- R152, R153: the block functions are 32 rounds from the split of the block to the pack of the final pair, the
round index ascending to encrypt and descending to decrypt. -/
def Obligations.BlockFunctionsRunTheRounds : Prop :=
  ∀ (sbox : SBox) (key : KeyWords) (blk : Block),
    (∃ p : Nat → Word × Word,
      p 0 = (blk.extractLsb' 32 32, blk.extractLsb' 0 32) ∧
      (∀ r, r < 32 → p (r + 1) = ((p r).2 ^^^ transform sbox (p r).1 (subkeyForRound r key), (p r).1)) ∧
      encryptBlock sbox key blk = pack (p 32)) ∧
    (∃ p : Nat → Word × Word,
      p 0 = (blk.extractLsb' 32 32, blk.extractLsb' 0 32) ∧
      (∀ r, r < 32 → p (r + 1) = ((p r).2 ^^^ transform sbox (p r).1 (subkeyForRound (31 - r) key), (p r).1)) ∧
      decryptBlock sbox key blk = pack (p 32))

/-- 43_feistel_network section 4: the sequencer on the transient registers. The spec marks the small-step form as
derived (R157). Start splits the block into A and B, finish packs them. From
start, after `n ≤ 32` steps CNT is `n`; while it is below 32 a step is one round with the round index CNT or
31 - CNT; after exactly 32 the pack of A and B is the block function of the direction; and no step writes anything but
A, B and CNT. -/
def Obligations.SequencerComputesTheBlockFunctions : Prop :=
  ∀ (s : State) (blk : Block) (dir : BitVec 1),
    (∀ n, n ≤ 32 →
      (State.seqSteps n (s.seqStart blk dir)).seq.cnt.toNat = n ∧
      (State.seqSteps n (s.seqStart blk dir)).seq.dir = dir ∧
      State.seqSteps n (s.seqStart blk dir) =
        { s with seq := { (State.seqSteps n (s.seqStart blk dir)).seq with bi := s.seq.bi } }) ∧
    (∀ t : State, t.seq.cnt.toNat < 32 →
      t.seqStep =
        { t with seq := { t.seq with
          a := t.seq.b ^^^ transform t.sbox t.seq.a
            (subkeyForRound (if t.seq.dir = 0 then t.seq.cnt.toNat else 31 - t.seq.cnt.toNat) t.k)
          b := t.seq.a
          cnt := t.seq.cnt + 1 } }) ∧
    (∀ t : State, 32 ≤ t.seq.cnt.toNat → t.seqStep = t) ∧
    (State.seqSteps 32 (s.seqStart blk dir)).seqResult =
      (if dir = 0 then encryptBlock s.sbox s.k blk else decryptBlock s.sbox s.k blk) ∧
    (s.seqStart blk dir).seq.a.toNat = blk.toNat / 2 ^ 32 ∧ (s.seqStart blk dir).seq.b.toNat = blk.toNat % 2 ^ 32 ∧
    s.seqResult.toNat = s.seq.b.toNat * 2 ^ 32 + s.seq.a.toNat

/-- R155: ENCBLK. Its word; BLK becomes its encryption; A, B, CNT and DIR are unspecified after it (free values);
nothing else changes; KeyNotLoaded without a key; refused in the fault state. -/
def Obligations.EncblkCommand : Prop :=
  (∀ cw : Word, decode cw = .command .encblk ↔ cw = 0x20000000) ∧
  (∀ s : State, s.ReadyWithKey →
    exec .encblk s = .next
      { s with
        blk := encryptBlock s.sbox s.k s.blk
        seq := { Seq.unspecified s.free.seq with bi := s.seq.bi }
        free := { s.free with seq := s.free.seq + 1 } }) ∧
  (∀ s : State, s.err = 0#3 → s.keyOk = false →
    exec .encblk s = .next { s with status := Status.setErr s.status 6 }) ∧
  (∀ s : State, s.err ≠ 0#3 → exec .encblk s = .next s)

/-- R156: DECBLK, likewise with the decryption. -/
def Obligations.DecblkCommand : Prop :=
  (∀ cw : Word, decode cw = .command .decblk ↔ cw = 0x21000000) ∧
  (∀ s : State, s.ReadyWithKey →
    exec .decblk s = .next
      { s with
        blk := decryptBlock s.sbox s.k s.blk
        seq := { Seq.unspecified s.free.seq with bi := s.seq.bi }
        free := { s.free with seq := s.free.seq + 1 } }) ∧
  (∀ s : State, s.err = 0#3 → s.keyOk = false →
    exec .decblk s = .next { s with status := Status.setErr s.status 6 }) ∧
  (∀ s : State, s.err ≠ 0#3 → exec .decblk s = .next s)

/-- 43_feistel_network section 6: for every table set and every key the two block functions are inverse to each other,
hence bijections. The source states the first clause; the spec marks the rest, and that the tables need not be valid, as
derived (R158). -/
def Obligations.BlockRoundTrip : Prop :=
  ∀ (sbox : SBox) (key : KeyWords),
    (∀ b, decryptBlock sbox key (encryptBlock sbox key b) = b) ∧
    (∀ b, encryptBlock sbox key (decryptBlock sbox key b) = b) ∧
    Function.Bijective (encryptBlock sbox key) ∧ Function.Bijective (decryptBlock sbox key)

/-- R159: what ENCBLK and DECBLK leave in BLK depends on BLK, K and SBOX only. -/
def Obligations.BlockCommandsAreDeterministic : Prop :=
  ∀ s s' : State, s.ReadyWithKey → s'.ReadyWithKey → s.blk = s'.blk → s.k = s'.k → s.sbox = s'.sbox →
    (∃ t t', exec .encblk s = .next t ∧ exec .encblk s' = .next t' ∧ t.blk = t'.blk) ∧
    (∃ t t', exec .decblk s = .next t ∧ exec .decblk s' = .next t' ∧ t.blk = t'.blk)

/-! ### The ECB processor, ENCSTR and DECSTR -/

/-- R61: a chunk of bytes as a block and a block as bytes, little-endian. -/
def Obligations.BlocksAreLittleEndian : Prop :=
  (∀ c0 c1 c2 c3 c4 c5 c6 c7 : Byte,
    (fromLe64 [c0, c1, c2, c3, c4, c5, c6, c7]).toNat =
      c0.toNat + c1.toNat * 2 ^ 8 + c2.toNat * 2 ^ 16 + c3.toNat * 2 ^ 24 + c4.toNat * 2 ^ 32 + c5.toNat * 2 ^ 40
        + c6.toNat * 2 ^ 48 + c7.toNat * 2 ^ 56) ∧
  (∀ (v : Block) (i : Fin 8), (le64 v)[i.val]? = some (BitVec.ofNat 8 (v.toNat / 2 ^ (8 * i.val)))) ∧
  (∀ v : Block, (le64 v).length = 8 ∧ fromLe64 (le64 v) = v)

/-- 20_memory section 2: the high half A is bytes 4 to 7 on input and the low half B bytes 0 to 3, and on output the
final A lies in bytes 0 to 3 and the final B in bytes 4 to 7. The spec marks this as derived (R62). -/
def Obligations.HalvesInTheBytes : Prop :=
  (∀ c0 c1 c2 c3 c4 c5 c6 c7 : Byte,
    (highHalf (fromLe64 [c0, c1, c2, c3, c4, c5, c6, c7])).toNat =
      c4.toNat + c5.toNat * 2 ^ 8 + c6.toNat * 2 ^ 16 + c7.toNat * 2 ^ 24 ∧
    (lowHalf (fromLe64 [c0, c1, c2, c3, c4, c5, c6, c7])).toNat =
      c0.toNat + c1.toNat * 2 ^ 8 + c2.toNat * 2 ^ 16 + c3.toNat * 2 ^ 24) ∧
  (∀ (a b : Word) (i : Fin 4),
    (le64 (pack (a, b)))[i.val]? = some (BitVec.ofNat 8 (a.toNat / 2 ^ (8 * i.val))) ∧
    (le64 (pack (a, b)))[i.val + 4]? = some (BitVec.ofNat 8 (b.toNat / 2 ^ (8 * i.val))))

/-- R170: the padding length is 1 to 8, the padded length the smallest multiple of 8 above the length, and the number
of blocks one more than the whole blocks of the data. -/
def Obligations.PaddingLength : Prop :=
  (∀ n : Nat, padLength n = 8 - n % 8 ∧ 1 ≤ padLength n ∧ padLength n ≤ 8 ∧
    n + padLength n = 8 * (n / 8 + 1) ∧ (n + padLength n) / 8 = n / 8 + 1 ∧
    (∀ m, n < m → m % 8 = 0 → n + padLength n ≤ m)) ∧
  (List.range 8).map padLength = [8, 7, 6, 5, 4, 3, 2, 1]

/-- R174: stripping removes zero bytes from the end, all of them, and nothing else, and is applied once, to the whole
of the decrypted blocks. -/
def Obligations.StripRemovesEveryTrailingZero : Prop :=
  ∀ d : List Byte,
    (∃ z, d = stripZeros d ++ zeros z) ∧
    (stripZeros d = [] ∨ ∃ init last, stripZeros d = init ++ [last] ∧ last ≠ 0) ∧
    ((∀ x ∈ d, x = 0) → stripZeros d = []) ∧
    (∀ (sbox : SBox) (key : KeyWords), d.length % 8 = 0 → ∃ raw : List Byte,
      decryptStream sbox key d = stripZeros raw ∧ raw.length = d.length ∧
      ∀ i, i < d.length / 8 →
        (raw.drop (8 * i)).take 8 = le64 (decryptBlock sbox key (fromLe64 ((d.drop (8 * i)).take 8))))

/-- R70, R171, R173: block `i` of a stream's output, before stripping, is the block function of block `i` of the
(padded) input and of nothing else; all chunks are whole, and stripping is applied once, to the whole. -/
def Obligations.StreamsWorkBlockByBlock : Prop :=
  ∀ (sbox : SBox) (key : KeyWords) (d : List Byte),
    ((encryptStream sbox key d).length = d.length + padLength d.length ∧
      ∀ i, i < d.length / 8 + 1 →
        ((encryptStream sbox key d).drop (8 * i)).take 8 =
          le64 (encryptBlock sbox key (fromLe64 (((d ++ zeros (padLength d.length)).drop (8 * i)).take 8)))) ∧
    (d.length % 8 = 0 → ∃ raw : List Byte,
      decryptStream sbox key d = stripZeros raw ∧ raw.length = d.length ∧
      ∀ i, i < d.length / 8 →
        (raw.drop (8 * i)).take 8 = le64 (decryptBlock sbox key (fromLe64 ((d.drop (8 * i)).take 8))))

/-- R175: ENCSTR. Its word; OBUF[0 : OLEN] becomes the encryption of IBUF[0 : ILEN], OLEN its length, and no byte of
OBUF at or beyond OLEN has a meaning; the transient registers are unspecified after it; nothing else changes, no byte
of IBUF either; KeyNotLoaded without a key; refused in the fault state. -/
def Obligations.EncstrCommand : Prop :=
  (∀ cw : Word, decode cw = .command .encstr ↔ cw = 0x30000000) ∧
  (∀ s : State, s.ReadyWithKey → ∃ t, exec .encstr s = .next t ∧
    t.olen = s.ilen + (8 - s.ilen % 8) ∧
    t.outputBytes = encryptStream s.sbox s.k s.inputBytes ∧
    (∀ a, t.olen ≤ a → t.obuf.find a = none) ∧
    (∀ a, t.inputByte a = s.inputByte a) ∧
    t = { s with
      obuf := t.obuf
      olen := t.olen
      seq := Seq.unspecified s.free.seq
      free := { s.free with seq := s.free.seq + 1, obuf := s.free.obuf + 1 } }) ∧
  (∀ s : State, s.err = 0#3 → s.keyOk = false →
    exec .encstr s = .next { s with status := Status.setErr s.status 6 }) ∧
  (∀ s : State, s.err ≠ 0#3 → exec .encstr s = .next s)

/-- R172, R176: DECSTR. Its word; with a length that is a multiple of 8, 0 among them, OBUF[0 : OLEN] becomes the
stripped decryption of IBUF[0 : ILEN]; with another length InvalidCiphertextLength and no output; KeyNotLoaded tested
first; refused in the fault state. -/
def Obligations.DecstrCommand : Prop :=
  (∀ cw : Word, decode cw = .command .decstr ↔ cw = 0x31000000) ∧
  (∀ s : State, s.ReadyWithKey → s.ilen % 8 = 0 → ∃ t, exec .decstr s = .next t ∧
    t.outputBytes = decryptStream s.sbox s.k s.inputBytes ∧
    t.olen = (decryptStream s.sbox s.k s.inputBytes).length ∧ t.olen ≤ s.ilen ∧
    (∀ a, t.olen ≤ a → t.obuf.find a = none) ∧
    (∀ a, t.inputByte a = s.inputByte a) ∧
    t = { s with
      obuf := t.obuf
      olen := t.olen
      seq := Seq.unspecified s.free.seq
      free := { s.free with seq := s.free.seq + 1, obuf := s.free.obuf + 1 } }) ∧
  (∀ s : State, s.ReadyWithKey → s.ilen % 8 ≠ 0 →
    exec .decstr s = .next { s with status := Status.setErr s.status 3 }) ∧
  (∀ s : State, s.err = 0#3 → s.keyOk = false →
    exec .decstr s = .next { s with status := Status.setErr s.status 6 }) ∧
  (∀ s : State, s.err ≠ 0#3 → exec .decstr s = .next s)

/-- R177: the length of an encrypted stream is that of its input and the padding, a positive multiple of 8 and larger;
that of a decrypted one is the input's less the zeros stripped; and DECSTR rejects a length that is no multiple of 8
with InvalidCiphertextLength. -/
def Obligations.StreamLengths : Prop :=
  (∀ (sbox : SBox) (key : KeyWords) (d : List Byte),
    (encryptStream sbox key d).length = d.length + padLength d.length ∧
    (encryptStream sbox key d).length % 8 = 0 ∧
    d.length < (encryptStream sbox key d).length ∧ (encryptStream sbox key d).length ≤ d.length + 8) ∧
  (∀ (sbox : SBox) (key : KeyWords) (d : List Byte), d.length % 8 = 0 →
    ∃ z, (decryptStream sbox key d ++ zeros z).length = d.length ∧
      ∀ i, i < d.length / 8 →
        ((decryptStream sbox key d ++ zeros z).drop (8 * i)).take 8 =
          le64 (decryptBlock sbox key (fromLe64 ((d.drop (8 * i)).take 8)))) ∧
  (∀ s : State, s.ReadyWithKey → s.ilen % 8 ≠ 0 → ∃ t, exec .decstr s = .next t ∧ t.err = 3#3)

/-- 44_ecb_processor section 4: decrypting an encrypted stream gives it back less its trailing zero bytes, so exactly
when it is empty or ends in a non-zero byte; and an input that ends in zero bytes loses exactly those. The spec marks
this as derived (R178) from what the source states of lengths that are a positive multiple of 8. -/
def Obligations.StreamRoundTrip : Prop :=
  ∀ (sbox : SBox) (key : KeyWords) (d : List Byte),
    decryptStream sbox key (encryptStream sbox key d) = stripZeros d ∧
    (decryptStream sbox key (encryptStream sbox key d) = d ↔ d = [] ∨ ∃ init last, d = init ++ [last] ∧ last ≠ 0) ∧
    (∀ e z, d = e ++ zeros z → (e = [] ∨ ∃ init last, e = init ++ [last] ∧ last ≠ 0) →
      decryptStream sbox key (encryptStream sbox key d) = e)

/-- 20_memory section 4: a stream command given twice in a row leaves the same output twice. That a byte of IBUF which
nothing has written reads the same both times is the model's choice, log 5. -/
def Obligations.RepeatedStreamCommandGivesTheSame : Prop :=
  ∀ s : State, s.ReadyWithKey →
    (∃ t u, exec .encstr s = .next t ∧ exec .encstr t = .next u ∧ u.olen = t.olen ∧ u.outputBytes = t.outputBytes) ∧
    (s.ilen % 8 = 0 → ∃ t u, exec .decstr s = .next t ∧ exec .decstr t = .next u ∧
      u.olen = t.olen ∧ u.outputBytes = t.outputBytes)

/-- 44_ecb_processor section 4: no chaining: what a stream command puts out depends on its input bytes, K and SBOX, and
on nothing an earlier command left. -/
def Obligations.StreamCommandsKeepNothing : Prop :=
  ∀ s s' : State, s.ReadyWithKey → s'.ReadyWithKey → s.inputBytes = s'.inputBytes → s.k = s'.k → s.sbox = s'.sbox →
    (∃ t t', exec .encstr s = .next t ∧ exec .encstr s' = .next t' ∧
      t.olen = t'.olen ∧ t.outputBytes = t'.outputBytes) ∧
    (s.ilen % 8 = 0 → ∃ t t', exec .decstr s = .next t ∧ exec .decstr s' = .next t' ∧
      t.olen = t'.olen ∧ t.outputBytes = t'.outputBytes)

/-! ### Frames -/

/-- 10_state section 2 (the access summary): what each command leaves alone. No command writes KIN, ACC, SK, ILEN, any
byte of IBUF, SBOX, TBL_OK or the reserved bits; each other register has the writers the summary names. -/
def Obligations.CommandsWriteOnlyTheirResults : Prop :=
  ∀ (i : Instr) (s t : State), exec i s = .next t →
    (t.kin = s.kin ∧ t.acc = s.acc ∧ t.sk = s.sk ∧ t.ilen = s.ilen ∧ t.ibuf = s.ibuf ∧ t.sbox = s.sbox ∧
      t.port = s.port ∧ t.hostOut = s.hostOut ∧ (∀ a, t.inputByte a = s.inputByte a)) ∧
    (t.tblOk = s.tblOk ∧ Status.reserved t.status = Status.reserved s.status ∧ (s.keyOk = true → t.keyOk = true)) ∧
    ((∀ n, i ≠ .ldkey n) → t.k = s.k ∧ t.keyOk = s.keyOk) ∧
    ((∀ a b, i ≠ .subst a b) → i ≠ .xform → (∀ r, i ≠ .subkey r) → t.res = s.res) ∧
    (i ≠ .encblk → i ≠ .decblk → t.blk = s.blk) ∧
    (i ≠ .encstr → i ≠ .decstr → t.obuf = s.obuf ∧ t.olen = s.olen ∧ t.seq.bi = s.seq.bi ∧
      ∀ a, t.outputByte a = s.outputByte a) ∧
    (i ≠ .encblk → i ≠ .decblk → i ≠ .encstr → i ≠ .decstr → t.seq = s.seq ∧ t.free = s.free)

/-! ### Reset, the host and the invariant -/

/-- R55: what a reset leaves in every piece of state; the bytes of the buffers and the transient registers are
unspecified (unlisted, and free values). -/
def Obligations.ResetLeavesTheResetValues : Prop :=
  ∀ (s : State) (rest : List HostAction), s.port = .reset :: rest → ∃ t, step s = .next t ∧
    t.sbox = s.sbox ∧
    Status.tblOk t.status = tablesValid s.sbox ∧ Status.keyOk t.status = false ∧
    Status.err t.status = (if tablesValid s.sbox then 0 else 1) ∧ Status.reserved t.status = 0 ∧
    t.status = (if tablesValid s.sbox then 1 else 4) ∧
    (∀ i : Fin 8, t.k.get i = 0 ∧ t.kin.get i = 0) ∧
    t.acc = 0 ∧ t.sk = 0 ∧ t.res = 0 ∧ t.blk = 0 ∧ t.ilen = 0 ∧ t.olen = 0 ∧
    (∀ a, t.ibuf.find a = none ∧ t.obuf.find a = none) ∧
    t.seq = Seq.unspecified s.free.seq

/-- 70_reset_and_hazards section 1: a reset leaves the actions still pending and the value of the last host read, which
belong to the host. That it does is the model's choice, log 15 (the two fields are those of log 2 and log 3). -/
def Obligations.ResetLeavesTheHostSide : Prop :=
  ∀ (s : State) (rest : List HostAction), s.port = .reset :: rest →
    ∃ t, step s = .next t ∧ t.port = rest ∧ t.hostOut = s.hostOut

/-- 10_state section 9: `State.reset` holds the reset values of a table set that is valid. That its tables are valid
and that nothing is pending are the model's choices, log 1 and log 2. -/
def Obligations.ResetStateHoldsTheResetValues : Prop :=
  tablesValid State.reset.sbox = true ∧ State.reset.status = 1 ∧
  (∀ i : Fin 8, State.reset.k.get i = 0 ∧ State.reset.kin.get i = 0) ∧
  State.reset.acc = 0 ∧ State.reset.sk = 0 ∧ State.reset.res = 0 ∧ State.reset.blk = 0 ∧
  State.reset.ilen = 0 ∧ State.reset.olen = 0 ∧
  (∀ a, State.reset.ibuf.find a = none ∧ State.reset.obuf.find a = none) ∧ State.reset.port = []

/-- 70_reset_and_hazards section 1: nothing but reset clears a recorded error or KEY_OK. -/
def Obligations.OnlyResetClearsErrAndKeyOk : Prop :=
  ∀ s t : State, step s = .next t → s.port.head? ≠ some .reset →
    (s.err ≠ 0#3 → t.err = s.err) ∧ (s.keyOk = true → t.keyOk = true)

/-- R195: MalformedTable is raised by reset, exactly when the tables are not valid, and by nothing else; TBL_OK is then
0; and an engine with such tables, in any reachable state, never executes a command. -/
def Obligations.MalformedTablesStopTheEngine : Prop :=
  (∀ (s : State) (rest : List HostAction), s.port = .reset :: rest →
    ∃ t, step s = .next t ∧ (t.err = 1#3 ↔ tablesValid s.sbox = false) ∧ (t.err = 1#3 → t.tblOk = false)) ∧
  (∀ s t : State, step s = .next t → s.port.head? ≠ some .reset → t.err = 1#3 → s.err = 1#3) ∧
  (∀ s : State, s.Inv → tablesValid s.sbox = false →
    s.err = 1#3 ∧ ∀ cw rest, s.port = .command cw :: rest → step s = .next (s.withPort rest))

/-- 10_state section 2 (the access summary): a host write sets what the host may write and nothing else, and has no
effect on what it may not write. That a write of ILEN leaves every byte of IBUF, also at and beyond the new ILEN, is
read by inference, log 9 (DEDUCED): no rule says it. -/
def Obligations.HostWritesWithinTheirRights : Prop :=
  ∀ (s : State) (rest : List HostAction),
    (∀ (i : Fin 8) (v : Word), s.port = .write (.kin i v) :: rest →
      ∃ t, step s = .next t ∧ t.kin.get i = v ∧ (∀ j, j ≠ i → t.kin.get j = s.kin.get j) ∧
        t = { s with port := rest, kin := t.kin }) ∧
    (∀ v, s.port = .write (.acc v) :: rest → step s = .next { s with port := rest, acc := v }) ∧
    (∀ v, s.port = .write (.sk v) :: rest → step s = .next { s with port := rest, sk := v }) ∧
    (∀ v, s.port = .write (.blk v) :: rest → step s = .next { s with port := rest, blk := v }) ∧
    (∀ n, s.port = .write (.ilen n) :: rest → step s = .next { s with port := rest, ilen := n }) ∧
    (∀ a v, s.port = .write (.ibuf a v) :: rest →
      ∃ t, step s = .next t ∧ t.inputByte a = v ∧ (∀ x, x ≠ a → t.inputByte x = s.inputByte x) ∧
        t = { s with port := rest, ibuf := t.ibuf, free := { s.free with ibuf := s.free.ibuf + 1 } }) ∧
    (∀ w : HostWrite, s.port = .write w :: rest →
      (∀ i v, w ≠ .kin i v) → (∀ v, w ≠ .acc v) → (∀ v, w ≠ .sk v) → (∀ v, w ≠ .blk v) → (∀ n, w ≠ .ilen n) →
      (∀ a v, w ≠ .ibuf a v) → step s = .next (s.withPort rest))

/-- 10_state section 2 (the access summary): a host read returns the value of what the host may read, a byte of a buffer
below its length, no value for what it may not read, and changes nothing of the engine. That the value goes into a field
of State is the model's choice, log 3. -/
def Obligations.HostReadsWithinTheirRights : Prop :=
  ∀ (s : State) (r : HostReg) (rest : List HostAction), s.port = .read r :: rest →
    ∃ v, step s = .next { s with port := rest, hostOut := v } ∧
      (∀ i : Fin 8, r = .kin i → v = some (.word (s.kin.get i))) ∧
      (r = .acc → v = some (.word s.acc)) ∧ (r = .sk → v = some (.word s.sk)) ∧
      (r = .res → v = some (.word s.res)) ∧ (r = .blk → v = some (.block s.blk)) ∧
      (r = .status → v = some (.word s.status)) ∧
      (r = .ilen → v = some (.length s.ilen)) ∧ (r = .olen → v = some (.length s.olen)) ∧
      (∀ a, r = .ibuf a → a < s.ilen → v = some (.byte (s.inputByte a))) ∧
      (∀ a, r = .obuf a → a < s.olen → v = some (.byte (s.outputByte a))) ∧
      (∀ a, r = .ibuf a ∨ r = .obuf a → ∃ b, v = some (.byte b)) ∧
      ((∃ i, r = .k i) ∨ (∃ t n, r = .sbox t n) ∨ r ∈ [.a, .b, .cnt, .dir, .bi] → v = none)

/-- 10_state sections 5, 7 and 9: the invariant of the machine holds at `State.reset`. That the tables of `State.reset`
are valid, with TBL_OK 1 and ERR 0, is the model's choice, log 1. -/
def Obligations.InvariantHoldsAtReset : Prop := State.reset.Inv

/-- 10_state sections 5, 7 and 9, 70_reset_and_hazards section 1: every step, of whatever action, from every state that
meets the invariant leads to a state that meets it: STATUS keeps its layout and its legal error codes, TBL_OK stays
the outcome of the validation, K stays as reset left it until a key is loaded, and OBUF has a specified byte exactly
below OLEN, both buffers in canonical form. -/
def Obligations.EveryStepKeepsTheInvariant : Prop :=
  ∀ s t : State, s.Inv → step s = .next t → t.Inv
end

