-- ==== Sys2Proof/Laws/Memory.lean ====
section
/-! SUPPORT. The byte memories: what a read gives after each operation, and that every operation keeps the canonical
form. -/

namespace Sys2Proof.Machine

@[simp] theorem Memory.find_nil (a : Nat) : Memory.find [] a = none := rfl

/-- A read after a write to the same address gives the byte written. -/
@[simp] theorem Memory.find_store_self (m : Memory) (a : Nat) (v : Byte) : (m.store a v).find a = some v := by
  induction m with
  | nil => simp [Memory.store, Memory.find]
  | cons c m ih =>
    obtain ⟨b, w⟩ := c
    unfold Memory.store
    split
    · simp [Memory.find]
    split
    · simp [Memory.find]
    · have h : ¬b = a := fun h => ‹¬a = b› h.symm
      simp [Memory.find, h, ih]

/-- A write leaves every other address alone. -/
theorem Memory.find_store_ne (m : Memory) {a x : Nat} (v : Byte) (h : x ≠ a) : (m.store a v).find x = m.find x := by
  induction m with
  | nil => simp [Memory.store, Memory.find, h.symm]
  | cons c m ih =>
    obtain ⟨b, w⟩ := c
    unfold Memory.store
    split
    · simp [Memory.find, h.symm]
    split
    · rename_i hab
      subst hab
      simp [Memory.find, h.symm]
    · simp only [Memory.find, ih]

/-- After a write of consecutive bytes, an address reads the byte written to it, or what it read before. -/
theorem Memory.find_storeBytes (m : Memory) (a x : Nat) (vs : List Byte) :
    (m.storeBytes a vs).find x = if a ≤ x ∧ x < a + vs.length then vs[x - a]? else m.find x := by
  induction vs generalizing m a with
  | nil =>
    have h : ¬(a ≤ x ∧ x < a) := by omega
    simp [Memory.storeBytes, h]
  | cons v vs ih =>
    rw [Memory.storeBytes, ih]
    by_cases hx : x = a
    · subst hx
      simp
    · by_cases hin : a + 1 ≤ x ∧ x < a + 1 + vs.length
      · obtain ⟨k, hk⟩ : ∃ k, x - a = k + 1 := ⟨x - a - 1, by omega⟩
        have h1 : a ≤ x ∧ x < a + (v :: vs).length := by simp; omega
        have h2 : x - (a + 1) = k := by omega
        rw [if_pos hin, if_pos h1, hk, h2, List.getElem?_cons_succ]
      · have h1 : ¬(a ≤ x ∧ x < a + (v :: vs).length) := by simp; omega
        rw [if_neg hin, if_neg h1, Memory.find_store_ne _ _ hx]

/-- Forgetting from `n` on leaves the addresses below `n` as they are. -/
theorem Memory.find_below (m : Memory) (n a : Nat) : (m.below n).find a = if a < n then m.find a else none := by
  induction m with
  | nil => simp [Memory.below]
  | cons c m ih =>
    obtain ⟨b, w⟩ := c
    have hcons : Memory.below ((b, w) :: m) n = if b < n then (b, w) :: Memory.below m n else Memory.below m n := by
      by_cases hb : b < n <;> simp [Memory.below, hb]
    rw [hcons]
    by_cases hba : b = a
    · subst hba
      by_cases hb : b < n
      · simp [Memory.find, hb]
      · simp [hb, ih]
    · by_cases hb : b < n <;> simp [Memory.find, hba, hb, ih]

/-! ### The canonical form -/

theorem Memory.wf_nil : Memory.wf [] := List.Pairwise.nil

/-- Both buffers are in canonical form at reset. -/
theorem State.wf_reset : State.reset.ibuf.wf ∧ State.reset.obuf.wf := ⟨Memory.wf_nil, Memory.wf_nil⟩

theorem Memory.mem_store {m : Memory} {a : Nat} {v : Byte} {c : Host.Cell} (h : c ∈ m.store a v) :
    c = (a, v) ∨ c ∈ m := by
  induction m with
  | nil => simpa [Memory.store] using h
  | cons d m ih =>
    obtain ⟨b, w⟩ := d
    unfold Memory.store at h
    split at h
    · simpa using h
    split at h
    · rcases List.mem_cons.1 h with h | h
      · exact .inl h
      · exact .inr (List.mem_cons_of_mem _ h)
    · rcases List.mem_cons.1 h with h | h
      · exact .inr (h ▸ List.mem_cons_self)
      · exact (ih h).imp_right (List.mem_cons_of_mem _)

theorem Memory.wf_store {m : Memory} (h : m.wf) (a : Nat) (v : Byte) : (m.store a v).wf := by
  induction m with
  | nil => simp [Memory.wf, Memory.store]
  | cons d m ih =>
    obtain ⟨b, w⟩ := d
    obtain ⟨hd, ht⟩ := List.pairwise_cons.1 h
    unfold Memory.store
    split
    · rename_i hab
      refine List.pairwise_cons.2 ⟨fun c hc => ?_, h⟩
      rcases List.mem_cons.1 hc with hc | hc
      · simpa [hc] using hab
      · exact lt_trans hab (hd c hc)
    split
    · rename_i hab
      exact List.pairwise_cons.2 ⟨fun c hc => by simpa [hab] using hd c hc, ht⟩
    · rename_i h1 h2
      refine List.pairwise_cons.2 ⟨fun c hc => ?_, ih ht⟩
      rcases Memory.mem_store hc with hc | hc
      · simp only [hc]
        omega
      · exact hd c hc

theorem Memory.wf_storeBytes {m : Memory} (h : m.wf) (a : Nat) (vs : List Byte) : (m.storeBytes a vs).wf := by
  induction vs generalizing m a with
  | nil => exact h
  | cons v vs ih => exact ih (Memory.wf_store h a v) (a + 1)

theorem Memory.wf_below {m : Memory} (h : m.wf) (n : Nat) : (m.below n).wf :=
  List.Pairwise.sublist List.filter_sublist h

end Sys2Proof.Machine
end

