-- ==== Sys2Proof/Laws/Status.lean ====
section
/-! SUPPORT. The fields of STATUS after each way of writing it (10_state R36 to R39). -/

namespace Sys2Proof.Machine

@[simp] theorem Status.tblOk_pack (t k : Bool) (e : BitVec 3) :
    Status.tblOk (Status.pack t k e) = t := by
  simp [Status.tblOk, Status.pack]

@[simp] theorem Status.keyOk_pack (t k : Bool) (e : BitVec 3) :
    Status.keyOk (Status.pack t k e) = k := by
  simp [Status.keyOk, Status.pack]

@[simp] theorem Status.err_pack (t k : Bool) (e : BitVec 3) :
    Status.err (Status.pack t k e) = e := by
  ext i hi
  interval_cases i <;> simp [Status.err, Status.pack, BitVec.getLsbD_eq_getElem]

@[simp] theorem Status.reserved_pack (t k : Bool) (e : BitVec 3) :
    Status.reserved (Status.pack t k e) = 0 := by
  ext i hi
  have h : e.getLsbD (5 + i - 2) = false := BitVec.getLsbD_of_ge _ _ (by omega)
  simp [Status.reserved, Status.pack, h]

@[simp] theorem Status.tblOk_setErr (st : Word) (e : BitVec 3) :
    Status.tblOk (Status.setErr st e) = Status.tblOk st := by
  simp [Status.tblOk, Status.setErr]

@[simp] theorem Status.keyOk_setErr (st : Word) (e : BitVec 3) :
    Status.keyOk (Status.setErr st e) = Status.keyOk st := by
  simp [Status.keyOk, Status.setErr]

@[simp] theorem Status.err_setErr (st : Word) (e : BitVec 3) :
    Status.err (Status.setErr st e) = e := by
  ext i hi
  interval_cases i <;> simp [Status.err, Status.setErr, BitVec.getLsbD_eq_getElem]

@[simp] theorem Status.reserved_setErr (st : Word) (e : BitVec 3) :
    Status.reserved (Status.setErr st e) = Status.reserved st := by
  ext i hi
  have h : e.getLsbD (5 + i - 2) = false := BitVec.getLsbD_of_ge _ _ (by omega)
  have hlt : 5 + i < 32 ∧ ¬5 + i ≤ 1 := by omega
  simp [Status.reserved, Status.setErr, h, hlt]

@[simp] theorem Status.tblOk_setKeyOk (st : Word) :
    Status.tblOk (Status.setKeyOk st) = Status.tblOk st := by
  simp [Status.tblOk, Status.setKeyOk]

@[simp] theorem Status.keyOk_setKeyOk (st : Word) :
    Status.keyOk (Status.setKeyOk st) = true := by
  simp [Status.keyOk, Status.setKeyOk]

@[simp] theorem Status.err_setKeyOk (st : Word) :
    Status.err (Status.setKeyOk st) = Status.err st := by
  ext i hi
  have h : ¬1 = 2 + i := by omega
  simp [Status.err, Status.setKeyOk, h]

@[simp] theorem Status.reserved_setKeyOk (st : Word) :
    Status.reserved (Status.setKeyOk st) = Status.reserved st := by
  ext i hi
  have h : ¬1 = 5 + i := by omega
  simp [Status.reserved, Status.setKeyOk, h]

@[simp] theorem Status.setErr_setErr (st : Word) (e f : BitVec 3) :
    Status.setErr (Status.setErr st e) f = Status.setErr st f := by
  ext i hi
  by_cases h5 : i < 5
  · simp [Status.setErr, h5]
  · have h : e.getLsbD (5 + (i - 5) - 2) = false := BitVec.getLsbD_of_ge _ _ (by omega)
    have hlt : 5 + (i - 5) < 32 ∧ ¬5 + (i - 5) ≤ 1 := by omega
    simp [Status.setErr, h5, h, hlt]

@[simp] theorem State.err_raise (s : State) (e : ErrKind) : (s.raise e).err = e.code :=
  Status.err_setErr s.status e.code

@[simp] theorem State.keyOk_raise (s : State) (e : ErrKind) : (s.raise e).keyOk = s.keyOk :=
  Status.keyOk_setErr s.status e.code

@[simp] theorem State.tblOk_raise (s : State) (e : ErrKind) : (s.raise e).tblOk = s.tblOk :=
  Status.tblOk_setErr s.status e.code

/-- No error has code 0 (10_state R39). -/
@[simp] theorem ErrKind.code_ne_zero (e : ErrKind) : e.code ≠ 0#3 := by cases e <;> decide

/-- No error has code 7 (10_state R39). -/
@[simp] theorem ErrKind.code_ne_seven (e : ErrKind) : e.code ≠ 7#3 := by cases e <;> decide

@[simp] theorem State.inFault_iff (s : State) : s.inFault = true ↔ s.err ≠ 0#3 := by simp [State.inFault]

@[simp] theorem State.inFault_eq_false (s : State) : s.inFault = false ↔ s.err = 0#3 := by simp [State.inFault]

end Sys2Proof.Machine
end

