-- ==== Sys2Proof/Laws/Ops.lean ====
section
/-! SUPPORT. Everything the shared operations can do: the frame of a command (30_encoding R91), the dispatch, the step. -/

namespace Sys2Proof.Machine

variable {s t : State}

/-- The three ways a command can go (R91). -/
theorem runCommand_cases (readsKey : Bool) (s : State) (body : State → State) :
    (s.err ≠ 0#3 ∧ runCommand readsKey s body = .next s) ∨
    (s.err = 0#3 ∧ readsKey = true ∧ s.keyOk = false ∧ runCommand readsKey s body = .next (s.raise .keyNotLoaded)) ∨
    (s.err = 0#3 ∧ (readsKey = false ∨ s.keyOk = true) ∧ runCommand readsKey s body = .next (body s)) := by
  by_cases hf : s.err = 0#3
  · cases readsKey <;> cases hk : s.keyOk <;> simp [runCommand, State.inFault, hf, hk]
  · simp [runCommand, State.inFault, hf]

/-- In the fault state a command changes nothing (60_exceptions R194). -/
theorem runCommand_of_fault (readsKey : Bool) (body : State → State) (h : s.err ≠ 0#3) :
    runCommand readsKey s body = .next s := by simp [runCommand, State.inFault, h]

/-- A command that reads no key runs its own rule outside the fault state. -/
theorem runCommand_of_ready (body : State → State) (h : s.err = 0#3) : runCommand false s body = .next (body s) := by
  simp [runCommand, State.inFault, h]

/-- A command that reads the key runs its own rule when a key is loaded. -/
theorem runCommand_of_readyWithKey (body : State → State) (h : s.ReadyWithKey) :
    runCommand true s body = .next (body s) := by simp [runCommand, State.inFault, h.1, h.2]

/-- A command that reads the key raises KeyNotLoaded when none is loaded (60_exceptions R200). -/
theorem runCommand_of_noKey (body : State → State) (h : s.err = 0#3) (hk : s.keyOk = false) :
    runCommand true s body = .next (s.raise .keyNotLoaded) := by simp [runCommand, State.inFault, h, hk]

/-- What each command does once the frame lets it run: its own rule, step 4 of 30_encoding R91. -/
def commandBody : Instr → State → State
  | .ldkey n => fun s =>
    if keyLengthLegal n then { s with k := s.kin, status := Status.setKeyOk s.status } else s.raise .invalidKeyLength
  | .subst t n => fun s =>
    if substOperandsLegal t n then
      { s with res := (substitute s.sbox (Fin.ofNat 8 t) (BitVec.ofNat 4 n)).setWidth 32 }
    else s.raise .invalidIndex
  | .xform => fun s => { s with res := transform s.sbox s.acc s.sk }
  | .subkey r => fun s => if roundLegal r then { s with res := subkeyForRound r s.k } else s.raise .invalidIndex
  | .encblk => fun s => s.blockCommand dirEncrypt
  | .decblk => fun s => s.blockCommand dirDecrypt
  | .encstr => fun s =>
    (State.encryptBlocks ((s.ilen + padLength s.ilen) / 8) s.startStream).finishStream (s.ilen + padLength s.ilen)
  | .decstr => fun s =>
    if s.ilen % 8 = 0 then
      (State.decryptBlocks (s.ilen / 8) s.startStream).finishStream
        ((State.decryptBlocks (s.ilen / 8) s.startStream).scanZeros s.ilen)
    else s.raise .invalidCiphertextLength

/-- Every command is its own rule in the one frame. -/
theorem exec_eq_runCommand (i : Instr) (s : State) : exec i s = runCommand (readsKey i) s (commandBody i) := by
  cases i <;> rfl

/-- Every command answers a next state. -/
theorem exec_answers_next (i : Instr) (s : State) : ∃ t, exec i s = .next t := by
  rw [exec_eq_runCommand]
  exact ⟨_, rfl⟩

/-- What a command can do: nothing in the fault state, KeyNotLoaded, or its own rule. -/
theorem exec_cases {i : Instr} {s t : State} (h : exec i s = .next t) :
    (s.err ≠ 0#3 ∧ t = s) ∨
    (s.err = 0#3 ∧ readsKey i = true ∧ s.keyOk = false ∧ t = s.raise .keyNotLoaded) ∨
    (s.err = 0#3 ∧ (readsKey i = false ∨ s.keyOk = true) ∧ t = commandBody i s) := by
  rw [exec_eq_runCommand] at h
  rcases runCommand_cases (readsKey i) s (commandBody i) with ⟨a, b⟩ | ⟨a, b, c, d⟩ | ⟨a, b, c⟩
  · exact .inl ⟨a, by injection b.symm.trans h with e; exact e.symm⟩
  · exact .inr (.inl ⟨a, b, c, by injection d.symm.trans h with e; exact e.symm⟩)
  · exact .inr (.inr ⟨a, b, by injection c.symm.trans h with e; exact e.symm⟩)

/-- Every step answers a next state. -/
theorem step_answers_next (s : State) : ∃ t, step s = .next t := by
  cases hp : s.port with
  | nil => exact ⟨s, by simp [step, takeNext, hp]⟩
  | cons act rest =>
    have hstep : step s = takeAction act (s.withPort rest) := by simp [step, takeNext, hp]
    rw [hstep]
    cases act with
    | command cw =>
      cases hd : decode cw with
      | command i => simpa [takeAction, takeCommand, hd] using exec_answers_next i (s.withPort rest)
      | illegal why => exact ⟨_, by rw [takeAction, takeCommand, hd]; rfl⟩
    | write w => exact ⟨_, rfl⟩
    | read r => exact ⟨_, rfl⟩
    | reset => exact ⟨_, rfl⟩

/-- What a step can do: nothing, a decoded command, an undecodable word, a host access, or a reset. -/
theorem step_cases (h : step s = .next t) :
    (s.port = [] ∧ t = s) ∨
    ∃ act rest, s.port = act :: rest ∧
      ((∃ cw i, act = .command cw ∧ decode cw = .command i ∧ exec i (s.withPort rest) = .next t) ∨
       (∃ cw why, act = .command cw ∧ decode cw = .illegal why ∧ illegalCommand (s.withPort rest) = .next t) ∨
       (∃ w, act = .write w ∧ t = (s.withPort rest).hostWrite w) ∨
       (∃ r, act = .read r ∧ t = { s.withPort rest with hostOut := (s.withPort rest).hostRead r }) ∨
       (act = .reset ∧ t = (s.withPort rest).hostReset)) := by
  unfold step takeNext at h
  split at h
  · rename_i hp
    exact .inl ⟨hp, by injection h with h; exact h.symm⟩
  · rename_i act rest hp
    refine .inr ⟨act, rest, hp, ?_⟩
    cases act with
    | command cw =>
      cases hd : decode cw with
      | command i => exact .inl ⟨cw, i, rfl, hd, by simpa [takeAction, takeCommand, hd] using h⟩
      | illegal why => exact .inr (.inl ⟨cw, why, rfl, hd, by simpa [takeAction, takeCommand, hd] using h⟩)
    | write w => exact .inr (.inr (.inl ⟨w, rfl, by injection h with h; exact h.symm⟩))
    | read r => exact .inr (.inr (.inr (.inl ⟨r, rfl, by injection h with h; exact h.symm⟩)))
    | reset => exact .inr (.inr (.inr (.inr ⟨rfl, by injection h with h; exact h.symm⟩)))

/-- Reading a register the host may read changes no register: a read only fills the host's side (10_state R27). -/
theorem hostRead_port (s : State) (rest : List HostAction) (r : HostReg) :
    (s.withPort rest).hostRead r = s.hostRead r := by cases r <;> rfl

end Sys2Proof.Machine
end

