-- ==== Sys2Proof/Laws/PerInstr.lean ====
section
/-! SUPPORT. What is said of every command as syntax, one lemma per constructor: its word lies in its row of the
opcode table (30_encoding R95). -/

namespace Sys2Proof.Laws

/-- The word of a command, under the mask of its row, is the row's match (R95). -/
def TableRow.Statement (i : Instr) : Prop := encode i &&& tableMask i = tableMatch i

/-- A value cut to 8 bits has no bit under the mask of its row's fixed bits. -/
theorem imm0_masked (n : Nat) : (BitVec.ofNat 8 n).setWidth 32 &&& (0xFFFFFF00 : Word) = 0 := by
  ext i hi
  interval_cases i <;> simp

theorem imms_masked (t n : Nat) :
    (((BitVec.ofNat 8 t).setWidth 32 <<< 8) ||| (BitVec.ofNat 8 n).setWidth 32) &&& (0xFFFF0000 : Word) = 0 := by
  ext i hi
  interval_cases i <;> simp

theorem TableRow.ldkey (n : Nat) : TableRow.Statement (.ldkey n) := by
  simp only [TableRow.Statement, encode, commandWord, tableMask, tableMatch, BitVec.and_or_distrib_right]
  rw [imm0_masked]
  decide

theorem TableRow.subst (t n : Nat) : TableRow.Statement (.subst t n) := by
  simp only [TableRow.Statement, encode, commandWord, tableMask, tableMatch]
  rw [BitVec.or_assoc, BitVec.and_or_distrib_right, imms_masked]
  decide

theorem TableRow.xform : TableRow.Statement .xform := by unfold TableRow.Statement; decide

theorem TableRow.subkey (r : Nat) : TableRow.Statement (.subkey r) := by
  simp only [TableRow.Statement, encode, commandWord, tableMask, tableMatch, BitVec.and_or_distrib_right]
  rw [imm0_masked]
  decide

theorem TableRow.encblk : TableRow.Statement .encblk := by unfold TableRow.Statement; decide

theorem TableRow.decblk : TableRow.Statement .decblk := by unfold TableRow.Statement; decide

theorem TableRow.encstr : TableRow.Statement .encstr := by unfold TableRow.Statement; decide

theorem TableRow.decstr : TableRow.Statement .decstr := by unfold TableRow.Statement; decide

end Sys2Proof.Laws
end

