-- ==== Sys2Proof/Laws/State.lean ====
section
/-! SUPPORT. What each named update of the state writes, field by field, so that no later proof unfolds one; and that
the tables of `State.reset` are valid. -/

namespace Sys2Proof.Machine

/-! ### `raise` -/

@[simp] theorem State.raise_k (s : State) (e : ErrKind) : (s.raise e).k = s.k := rfl
@[simp] theorem State.raise_kin (s : State) (e : ErrKind) : (s.raise e).kin = s.kin := rfl
@[simp] theorem State.raise_acc (s : State) (e : ErrKind) : (s.raise e).acc = s.acc := rfl
@[simp] theorem State.raise_sk (s : State) (e : ErrKind) : (s.raise e).sk = s.sk := rfl
@[simp] theorem State.raise_res (s : State) (e : ErrKind) : (s.raise e).res = s.res := rfl
@[simp] theorem State.raise_blk (s : State) (e : ErrKind) : (s.raise e).blk = s.blk := rfl
@[simp] theorem State.raise_status (s : State) (e : ErrKind) : (s.raise e).status = Status.setErr s.status e.code := rfl
@[simp] theorem State.raise_ibuf (s : State) (e : ErrKind) : (s.raise e).ibuf = s.ibuf := rfl
@[simp] theorem State.raise_ilen (s : State) (e : ErrKind) : (s.raise e).ilen = s.ilen := rfl
@[simp] theorem State.raise_obuf (s : State) (e : ErrKind) : (s.raise e).obuf = s.obuf := rfl
@[simp] theorem State.raise_olen (s : State) (e : ErrKind) : (s.raise e).olen = s.olen := rfl
@[simp] theorem State.raise_seq (s : State) (e : ErrKind) : (s.raise e).seq = s.seq := rfl
@[simp] theorem State.raise_sbox (s : State) (e : ErrKind) : (s.raise e).sbox = s.sbox := rfl
@[simp] theorem State.raise_port (s : State) (e : ErrKind) : (s.raise e).port = s.port := rfl
@[simp] theorem State.raise_hostOut (s : State) (e : ErrKind) : (s.raise e).hostOut = s.hostOut := rfl
@[simp] theorem State.raise_free (s : State) (e : ErrKind) : (s.raise e).free = s.free := rfl

/-! ### `present` -/

@[simp] theorem State.present_k (s : State) (cw : Word) : (s.present cw).k = s.k := rfl
@[simp] theorem State.present_kin (s : State) (cw : Word) : (s.present cw).kin = s.kin := rfl
@[simp] theorem State.present_acc (s : State) (cw : Word) : (s.present cw).acc = s.acc := rfl
@[simp] theorem State.present_sk (s : State) (cw : Word) : (s.present cw).sk = s.sk := rfl
@[simp] theorem State.present_res (s : State) (cw : Word) : (s.present cw).res = s.res := rfl
@[simp] theorem State.present_blk (s : State) (cw : Word) : (s.present cw).blk = s.blk := rfl
@[simp] theorem State.present_status (s : State) (cw : Word) : (s.present cw).status = s.status := rfl
@[simp] theorem State.present_ibuf (s : State) (cw : Word) : (s.present cw).ibuf = s.ibuf := rfl
@[simp] theorem State.present_ilen (s : State) (cw : Word) : (s.present cw).ilen = s.ilen := rfl
@[simp] theorem State.present_obuf (s : State) (cw : Word) : (s.present cw).obuf = s.obuf := rfl
@[simp] theorem State.present_olen (s : State) (cw : Word) : (s.present cw).olen = s.olen := rfl
@[simp] theorem State.present_seq (s : State) (cw : Word) : (s.present cw).seq = s.seq := rfl
@[simp] theorem State.present_sbox (s : State) (cw : Word) : (s.present cw).sbox = s.sbox := rfl
@[simp] theorem State.present_port (s : State) (cw : Word) : (s.present cw).port = .command cw :: s.port := rfl
@[simp] theorem State.present_hostOut (s : State) (cw : Word) : (s.present cw).hostOut = s.hostOut := rfl
@[simp] theorem State.present_free (s : State) (cw : Word) : (s.present cw).free = s.free := rfl

/-! ### `withPort` -/

@[simp] theorem State.withPort_k (s : State) (acts : List HostAction) : (s.withPort acts).k = s.k := rfl
@[simp] theorem State.withPort_kin (s : State) (acts : List HostAction) : (s.withPort acts).kin = s.kin := rfl
@[simp] theorem State.withPort_acc (s : State) (acts : List HostAction) : (s.withPort acts).acc = s.acc := rfl
@[simp] theorem State.withPort_sk (s : State) (acts : List HostAction) : (s.withPort acts).sk = s.sk := rfl
@[simp] theorem State.withPort_res (s : State) (acts : List HostAction) : (s.withPort acts).res = s.res := rfl
@[simp] theorem State.withPort_blk (s : State) (acts : List HostAction) : (s.withPort acts).blk = s.blk := rfl
@[simp] theorem State.withPort_status (s : State) (acts : List HostAction) : (s.withPort acts).status = s.status := rfl
@[simp] theorem State.withPort_ibuf (s : State) (acts : List HostAction) : (s.withPort acts).ibuf = s.ibuf := rfl
@[simp] theorem State.withPort_ilen (s : State) (acts : List HostAction) : (s.withPort acts).ilen = s.ilen := rfl
@[simp] theorem State.withPort_obuf (s : State) (acts : List HostAction) : (s.withPort acts).obuf = s.obuf := rfl
@[simp] theorem State.withPort_olen (s : State) (acts : List HostAction) : (s.withPort acts).olen = s.olen := rfl
@[simp] theorem State.withPort_seq (s : State) (acts : List HostAction) : (s.withPort acts).seq = s.seq := rfl
@[simp] theorem State.withPort_sbox (s : State) (acts : List HostAction) : (s.withPort acts).sbox = s.sbox := rfl
@[simp] theorem State.withPort_port (s : State) (acts : List HostAction) : (s.withPort acts).port = acts := rfl
@[simp] theorem State.withPort_hostOut (s : State) (acts : List HostAction) : (s.withPort acts).hostOut = s.hostOut := rfl
@[simp] theorem State.withPort_free (s : State) (acts : List HostAction) : (s.withPort acts).free = s.free := rfl

/-! ### `memWrite` -/

@[simp] theorem State.memWrite_k (s : State) (a : Nat) (v : Block) : (s.memWrite a v).k = s.k := rfl
@[simp] theorem State.memWrite_kin (s : State) (a : Nat) (v : Block) : (s.memWrite a v).kin = s.kin := rfl
@[simp] theorem State.memWrite_acc (s : State) (a : Nat) (v : Block) : (s.memWrite a v).acc = s.acc := rfl
@[simp] theorem State.memWrite_sk (s : State) (a : Nat) (v : Block) : (s.memWrite a v).sk = s.sk := rfl
@[simp] theorem State.memWrite_res (s : State) (a : Nat) (v : Block) : (s.memWrite a v).res = s.res := rfl
@[simp] theorem State.memWrite_blk (s : State) (a : Nat) (v : Block) : (s.memWrite a v).blk = s.blk := rfl
@[simp] theorem State.memWrite_status (s : State) (a : Nat) (v : Block) : (s.memWrite a v).status = s.status := rfl
@[simp] theorem State.memWrite_ibuf (s : State) (a : Nat) (v : Block) : (s.memWrite a v).ibuf = s.ibuf := rfl
@[simp] theorem State.memWrite_ilen (s : State) (a : Nat) (v : Block) : (s.memWrite a v).ilen = s.ilen := rfl
@[simp] theorem State.memWrite_obuf (s : State) (a : Nat) (v : Block) : (s.memWrite a v).obuf = s.obuf.storeBytes a (le64 v) := rfl
@[simp] theorem State.memWrite_olen (s : State) (a : Nat) (v : Block) : (s.memWrite a v).olen = s.olen := rfl
@[simp] theorem State.memWrite_seq (s : State) (a : Nat) (v : Block) : (s.memWrite a v).seq = s.seq := rfl
@[simp] theorem State.memWrite_sbox (s : State) (a : Nat) (v : Block) : (s.memWrite a v).sbox = s.sbox := rfl
@[simp] theorem State.memWrite_port (s : State) (a : Nat) (v : Block) : (s.memWrite a v).port = s.port := rfl
@[simp] theorem State.memWrite_hostOut (s : State) (a : Nat) (v : Block) : (s.memWrite a v).hostOut = s.hostOut := rfl
@[simp] theorem State.memWrite_free (s : State) (a : Nat) (v : Block) : (s.memWrite a v).free = s.free := rfl

/-! ### `releasePair` -/

@[simp] theorem State.releasePair_k (s : State) : (s.releasePair).k = s.k := rfl
@[simp] theorem State.releasePair_kin (s : State) : (s.releasePair).kin = s.kin := rfl
@[simp] theorem State.releasePair_acc (s : State) : (s.releasePair).acc = s.acc := rfl
@[simp] theorem State.releasePair_sk (s : State) : (s.releasePair).sk = s.sk := rfl
@[simp] theorem State.releasePair_res (s : State) : (s.releasePair).res = s.res := rfl
@[simp] theorem State.releasePair_blk (s : State) : (s.releasePair).blk = s.blk := rfl
@[simp] theorem State.releasePair_status (s : State) : (s.releasePair).status = s.status := rfl
@[simp] theorem State.releasePair_ibuf (s : State) : (s.releasePair).ibuf = s.ibuf := rfl
@[simp] theorem State.releasePair_ilen (s : State) : (s.releasePair).ilen = s.ilen := rfl
@[simp] theorem State.releasePair_obuf (s : State) : (s.releasePair).obuf = s.obuf := rfl
@[simp] theorem State.releasePair_olen (s : State) : (s.releasePair).olen = s.olen := rfl
@[simp] theorem State.releasePair_seq (s : State) : (s.releasePair).seq = { Seq.unspecified s.free.seq with bi := s.seq.bi } := rfl
@[simp] theorem State.releasePair_sbox (s : State) : (s.releasePair).sbox = s.sbox := rfl
@[simp] theorem State.releasePair_port (s : State) : (s.releasePair).port = s.port := rfl
@[simp] theorem State.releasePair_hostOut (s : State) : (s.releasePair).hostOut = s.hostOut := rfl
@[simp] theorem State.releasePair_free (s : State) : (s.releasePair).free = { s.free with seq := s.free.seq + 1 } := rfl

/-! ### `releaseSeq` -/

@[simp] theorem State.releaseSeq_k (s : State) : (s.releaseSeq).k = s.k := rfl
@[simp] theorem State.releaseSeq_kin (s : State) : (s.releaseSeq).kin = s.kin := rfl
@[simp] theorem State.releaseSeq_acc (s : State) : (s.releaseSeq).acc = s.acc := rfl
@[simp] theorem State.releaseSeq_sk (s : State) : (s.releaseSeq).sk = s.sk := rfl
@[simp] theorem State.releaseSeq_res (s : State) : (s.releaseSeq).res = s.res := rfl
@[simp] theorem State.releaseSeq_blk (s : State) : (s.releaseSeq).blk = s.blk := rfl
@[simp] theorem State.releaseSeq_status (s : State) : (s.releaseSeq).status = s.status := rfl
@[simp] theorem State.releaseSeq_ibuf (s : State) : (s.releaseSeq).ibuf = s.ibuf := rfl
@[simp] theorem State.releaseSeq_ilen (s : State) : (s.releaseSeq).ilen = s.ilen := rfl
@[simp] theorem State.releaseSeq_obuf (s : State) : (s.releaseSeq).obuf = s.obuf := rfl
@[simp] theorem State.releaseSeq_olen (s : State) : (s.releaseSeq).olen = s.olen := rfl
@[simp] theorem State.releaseSeq_seq (s : State) : (s.releaseSeq).seq = Seq.unspecified s.free.seq := rfl
@[simp] theorem State.releaseSeq_sbox (s : State) : (s.releaseSeq).sbox = s.sbox := rfl
@[simp] theorem State.releaseSeq_port (s : State) : (s.releaseSeq).port = s.port := rfl
@[simp] theorem State.releaseSeq_hostOut (s : State) : (s.releaseSeq).hostOut = s.hostOut := rfl
@[simp] theorem State.releaseSeq_free (s : State) : (s.releaseSeq).free = { s.free with seq := s.free.seq + 1 } := rfl

/-! ### `finishStream` -/

@[simp] theorem State.finishStream_k (s : State) (n : Nat) : (s.finishStream n).k = s.k := rfl
@[simp] theorem State.finishStream_kin (s : State) (n : Nat) : (s.finishStream n).kin = s.kin := rfl
@[simp] theorem State.finishStream_acc (s : State) (n : Nat) : (s.finishStream n).acc = s.acc := rfl
@[simp] theorem State.finishStream_sk (s : State) (n : Nat) : (s.finishStream n).sk = s.sk := rfl
@[simp] theorem State.finishStream_res (s : State) (n : Nat) : (s.finishStream n).res = s.res := rfl
@[simp] theorem State.finishStream_blk (s : State) (n : Nat) : (s.finishStream n).blk = s.blk := rfl
@[simp] theorem State.finishStream_status (s : State) (n : Nat) : (s.finishStream n).status = s.status := rfl
@[simp] theorem State.finishStream_ibuf (s : State) (n : Nat) : (s.finishStream n).ibuf = s.ibuf := rfl
@[simp] theorem State.finishStream_ilen (s : State) (n : Nat) : (s.finishStream n).ilen = s.ilen := rfl
@[simp] theorem State.finishStream_obuf (s : State) (n : Nat) : (s.finishStream n).obuf = s.obuf.below n := rfl
@[simp] theorem State.finishStream_olen (s : State) (n : Nat) : (s.finishStream n).olen = n := rfl
@[simp] theorem State.finishStream_seq (s : State) (n : Nat) : (s.finishStream n).seq = Seq.unspecified s.free.seq := rfl
@[simp] theorem State.finishStream_sbox (s : State) (n : Nat) : (s.finishStream n).sbox = s.sbox := rfl
@[simp] theorem State.finishStream_port (s : State) (n : Nat) : (s.finishStream n).port = s.port := rfl
@[simp] theorem State.finishStream_hostOut (s : State) (n : Nat) : (s.finishStream n).hostOut = s.hostOut := rfl
@[simp] theorem State.finishStream_free (s : State) (n : Nat) : (s.finishStream n).free = { s.free with seq := s.free.seq + 1, obuf := s.free.obuf + 1 } := rfl

/-! ### `startStream` -/

@[simp] theorem State.startStream_k (s : State) : (s.startStream).k = s.k := rfl
@[simp] theorem State.startStream_kin (s : State) : (s.startStream).kin = s.kin := rfl
@[simp] theorem State.startStream_acc (s : State) : (s.startStream).acc = s.acc := rfl
@[simp] theorem State.startStream_sk (s : State) : (s.startStream).sk = s.sk := rfl
@[simp] theorem State.startStream_res (s : State) : (s.startStream).res = s.res := rfl
@[simp] theorem State.startStream_blk (s : State) : (s.startStream).blk = s.blk := rfl
@[simp] theorem State.startStream_status (s : State) : (s.startStream).status = s.status := rfl
@[simp] theorem State.startStream_ibuf (s : State) : (s.startStream).ibuf = s.ibuf := rfl
@[simp] theorem State.startStream_ilen (s : State) : (s.startStream).ilen = s.ilen := rfl
@[simp] theorem State.startStream_obuf (s : State) : (s.startStream).obuf = s.obuf := rfl
@[simp] theorem State.startStream_olen (s : State) : (s.startStream).olen = s.olen := rfl
@[simp] theorem State.startStream_seq (s : State) : (s.startStream).seq = { s.seq with bi := 0 } := rfl
@[simp] theorem State.startStream_sbox (s : State) : (s.startStream).sbox = s.sbox := rfl
@[simp] theorem State.startStream_port (s : State) : (s.startStream).port = s.port := rfl
@[simp] theorem State.startStream_hostOut (s : State) : (s.startStream).hostOut = s.hostOut := rfl
@[simp] theorem State.startStream_free (s : State) : (s.startStream).free = s.free := rfl

/-! ### `seqStart` -/

@[simp] theorem State.seqStart_k (s : State) (b : Block) (dir : BitVec 1) : (s.seqStart b dir).k = s.k := rfl
@[simp] theorem State.seqStart_kin (s : State) (b : Block) (dir : BitVec 1) : (s.seqStart b dir).kin = s.kin := rfl
@[simp] theorem State.seqStart_acc (s : State) (b : Block) (dir : BitVec 1) : (s.seqStart b dir).acc = s.acc := rfl
@[simp] theorem State.seqStart_sk (s : State) (b : Block) (dir : BitVec 1) : (s.seqStart b dir).sk = s.sk := rfl
@[simp] theorem State.seqStart_res (s : State) (b : Block) (dir : BitVec 1) : (s.seqStart b dir).res = s.res := rfl
@[simp] theorem State.seqStart_blk (s : State) (b : Block) (dir : BitVec 1) : (s.seqStart b dir).blk = s.blk := rfl
@[simp] theorem State.seqStart_status (s : State) (b : Block) (dir : BitVec 1) : (s.seqStart b dir).status = s.status := rfl
@[simp] theorem State.seqStart_ibuf (s : State) (b : Block) (dir : BitVec 1) : (s.seqStart b dir).ibuf = s.ibuf := rfl
@[simp] theorem State.seqStart_ilen (s : State) (b : Block) (dir : BitVec 1) : (s.seqStart b dir).ilen = s.ilen := rfl
@[simp] theorem State.seqStart_obuf (s : State) (b : Block) (dir : BitVec 1) : (s.seqStart b dir).obuf = s.obuf := rfl
@[simp] theorem State.seqStart_olen (s : State) (b : Block) (dir : BitVec 1) : (s.seqStart b dir).olen = s.olen := rfl
@[simp] theorem State.seqStart_seq (s : State) (b : Block) (dir : BitVec 1) : (s.seqStart b dir).seq = { s.seq with a := highHalf b, b := lowHalf b, cnt := 0, dir := dir } := rfl
@[simp] theorem State.seqStart_sbox (s : State) (b : Block) (dir : BitVec 1) : (s.seqStart b dir).sbox = s.sbox := rfl
@[simp] theorem State.seqStart_port (s : State) (b : Block) (dir : BitVec 1) : (s.seqStart b dir).port = s.port := rfl
@[simp] theorem State.seqStart_hostOut (s : State) (b : Block) (dir : BitVec 1) : (s.seqStart b dir).hostOut = s.hostOut := rfl
@[simp] theorem State.seqStart_free (s : State) (b : Block) (dir : BitVec 1) : (s.seqStart b dir).free = s.free := rfl

/-! ### `hostReset` -/

@[simp] theorem State.hostReset_k (s : State) : (s.hostReset).k = Vector.replicate 8 0 := rfl
@[simp] theorem State.hostReset_kin (s : State) : (s.hostReset).kin = Vector.replicate 8 0 := rfl
@[simp] theorem State.hostReset_acc (s : State) : (s.hostReset).acc = 0 := rfl
@[simp] theorem State.hostReset_sk (s : State) : (s.hostReset).sk = 0 := rfl
@[simp] theorem State.hostReset_res (s : State) : (s.hostReset).res = 0 := rfl
@[simp] theorem State.hostReset_blk (s : State) : (s.hostReset).blk = 0 := rfl
@[simp] theorem State.hostReset_status (s : State) : (s.hostReset).status = Status.pack (tablesValid s.sbox) false (if tablesValid s.sbox then 0 else ErrKind.malformedTable.code) := rfl
@[simp] theorem State.hostReset_ibuf (s : State) : (s.hostReset).ibuf = [] := rfl
@[simp] theorem State.hostReset_ilen (s : State) : (s.hostReset).ilen = 0 := rfl
@[simp] theorem State.hostReset_obuf (s : State) : (s.hostReset).obuf = [] := rfl
@[simp] theorem State.hostReset_olen (s : State) : (s.hostReset).olen = 0 := rfl
@[simp] theorem State.hostReset_seq (s : State) : (s.hostReset).seq = Seq.unspecified s.free.seq := rfl
@[simp] theorem State.hostReset_sbox (s : State) : (s.hostReset).sbox = s.sbox := rfl
@[simp] theorem State.hostReset_port (s : State) : (s.hostReset).port = s.port := rfl
@[simp] theorem State.hostReset_hostOut (s : State) : (s.hostReset).hostOut = s.hostOut := rfl
@[simp] theorem State.hostReset_free (s : State) : (s.hostReset).free = ⟨s.free.epoch + 1, s.free.seq + 1, s.free.ibuf + 1, s.free.obuf + 1⟩ := rfl

/-! ### `State.reset` -/

theorem tablesValid_configSbox : tablesValid Config.sbox = true := by
  simp [tablesValid, Config.sbox, Vector.toList_ofFn]

/-- `State.reset` is the reset of the engine whose tables are `Config.sbox`, validated like any other. -/
theorem State.reset_eq :
    State.reset = State.resetValues Config.sbox (tablesValid Config.sbox) [] none ⟨0, 0, 0, 0⟩ := by
  rw [tablesValid_configSbox, State.reset]

end Sys2Proof.Machine
end

