-- ==== Sys2Proof/Laws/Sequencer.lean ====
section
/-! SUPPORT. What the block and stream operations touch: the sequencer only the transient registers, the block loop
those and OBUF. -/

namespace Sys2Proof.Machine

/-! ### The sequencer -/

/-- A step of the sequencer writes the transient registers only, and not BI. -/
theorem State.seqStep_frame (s : State) : s.seqStep = { s with seq := { s.seqStep.seq with bi := s.seq.bi } } := by
  unfold State.seqStep
  split <;> rfl

theorem State.seqSteps_frame (n : Nat) (s : State) :
    State.seqSteps n s = { s with seq := { (State.seqSteps n s).seq with bi := s.seq.bi } } := by
  induction n generalizing s with
  | zero => rfl
  | succ n ih =>
    rw [State.seqSteps]
    refine (ih s.seqStep).trans ?_
    rw [State.seqStep_frame s]

theorem State.seqSteps_succ (n : Nat) (s : State) : State.seqSteps (n + 1) s = (State.seqSteps n s).seqStep := by
  induction n generalizing s with
  | zero => rfl
  | succ n ih => rw [State.seqSteps, ih, ← State.seqSteps]

theorem State.runBlock_frame (s : State) (b : Block) (dir : BitVec 1) :
    s.runBlock b dir = { s with seq := { (s.runBlock b dir).seq with bi := s.seq.bi } } := by
  unfold State.runBlock
  refine (State.seqSteps_frame 32 _).trans ?_
  rfl

/-! ### The block loop -/

/-- One block of a stream writes eight bytes of OBUF at `8*BI`, and counts BI up; the rest is the sequencer's. -/
theorem State.streamBlock_frame (s : State) (chunk : Block) (dir : BitVec 1) :
    s.streamBlock chunk dir =
      { s with
        obuf := s.obuf.storeBytes (8 * s.seq.bi) (le64 (s.runBlock chunk dir).seqResult)
        seq := { (s.runBlock chunk dir).seq with bi := s.seq.bi + 1 } } := by
  unfold State.streamBlock State.memWrite
  rw [State.runBlock_frame s chunk dir]

@[simp] theorem State.streamBlock_bi (s : State) (chunk : Block) (dir : BitVec 1) :
    (s.streamBlock chunk dir).seq.bi = s.seq.bi + 1 := rfl

theorem State.encryptBlocks_frame (n : Nat) (s : State) :
    State.encryptBlocks n s =
      { s with obuf := (State.encryptBlocks n s).obuf, seq := (State.encryptBlocks n s).seq } := by
  induction n generalizing s with
  | zero => rfl
  | succ n ih =>
    rw [State.encryptBlocks]
    refine (ih _).trans ?_
    rw [State.streamBlock_frame]

theorem State.decryptBlocks_frame (n : Nat) (s : State) :
    State.decryptBlocks n s =
      { s with obuf := (State.decryptBlocks n s).obuf, seq := (State.decryptBlocks n s).seq } := by
  induction n generalizing s with
  | zero => rfl
  | succ n ih =>
    rw [State.decryptBlocks]
    refine (ih _).trans ?_
    rw [State.streamBlock_frame]

/-- The scan of DECSTR does not raise the length. -/
theorem State.scanZeros_le (s : State) (n : Nat) : s.scanZeros n ≤ n := by
  induction n with
  | zero => exact Nat.le_refl 0
  | succ n ih =>
    rw [State.scanZeros]
    split
    · omega
    · exact Nat.le_refl _

/-! ### The canonical form of OBUF -/

theorem State.wf_obuf_streamBlock {s : State} (h : s.obuf.wf) (chunk : Block) (dir : BitVec 1) :
    (s.streamBlock chunk dir).obuf.wf := by
  rw [State.streamBlock_frame]
  exact Memory.wf_storeBytes h _ _

theorem State.wf_obuf_encryptBlocks (n : Nat) {s : State} (h : s.obuf.wf) : (State.encryptBlocks n s).obuf.wf := by
  induction n generalizing s with
  | zero => exact h
  | succ n ih => exact ih (State.wf_obuf_streamBlock h _ _)

theorem State.wf_obuf_decryptBlocks (n : Nat) {s : State} (h : s.obuf.wf) : (State.decryptBlocks n s).obuf.wf := by
  induction n generalizing s with
  | zero => exact h
  | succ n ih => exact ih (State.wf_obuf_streamBlock h _ _)

theorem State.wf_obuf_finishStream {s : State} (h : s.obuf.wf) (n : Nat) : (s.finishStream n).obuf.wf :=
  Memory.wf_below h n

theorem State.wf_ibuf_hostWrite {s : State} (h : s.ibuf.wf) (w : HostWrite) : (s.hostWrite w).ibuf.wf := by
  cases w with
  | ibuf a v => exact Memory.wf_store h a v
  | _ => exact h

end Sys2Proof.Machine
end

