-- ==== Sys2Proof/Tests/Slice0.lean ====
section
/-! SUPPORT. Tests. Expected values are those of 95_test_vectors (its section in each comment), none is the model's own
answer; then, for every statement with hypotheses, a witness that concrete states and operands meet them, clause by
clause, at the boundaries where a clause has any. -/

open Sys2Proof Sys2Proof.Machine

namespace Sys2Proof.Tests

/-! ### Parameters (95 section 1) -/

def identityTable : Vector Nibble 16 := #v[0, 1, 2, 3, 4, 5, 6, 7, 8, 9, 10, 11, 12, 13, 14, 15]

/-- `SBOX_ID`. -/
def sboxId : SBox := Vector.replicate 8 identityTable

/-- `SBOX_T1`. -/
def sboxT1 : SBox := #v[
  #v[4, 10, 9, 2, 13, 8, 0, 14, 6, 11, 1, 12, 7, 15, 5, 3],
  #v[14, 11, 4, 12, 6, 13, 15, 10, 2, 3, 8, 1, 0, 7, 5, 9],
  #v[5, 8, 1, 13, 10, 3, 4, 2, 14, 15, 12, 7, 6, 0, 9, 11],
  #v[7, 13, 10, 1, 0, 8, 9, 15, 14, 4, 6, 12, 11, 2, 5, 3],
  #v[6, 12, 7, 1, 5, 15, 13, 8, 4, 10, 9, 14, 0, 3, 11, 2],
  #v[4, 11, 10, 0, 7, 2, 1, 13, 3, 6, 8, 5, 9, 12, 15, 14],
  #v[13, 11, 4, 1, 3, 15, 5, 9, 0, 10, 14, 7, 6, 8, 2, 12],
  #v[1, 15, 13, 0, 5, 7, 10, 4, 9, 2, 3, 14, 6, 11, 8, 12]]

/-- `SBOX_BAD`: entry `[0][1]` is 0, so table 0 has 0 twice. -/
def sboxBad : SBox := sboxId.set 0 (identityTable.set 1 0)

/-- `KEY_EX`. -/
def keyEx : KeyWords :=
  #v[0x12345678, 0x9ABCDEF0, 0x11223344, 0x55667788, 0x99AABBCC, 0xDDEEFF00, 0x13579BDF, 0x2468ACE0]

/-- An engine after reset, no key loaded. -/
def fresh (sbox : SBox) : State := State.resetValues sbox (tablesValid sbox) [] none ⟨0, 0, 0, 0⟩

/-- An engine with `KEY_EX` loaded: TBL_OK and KEY_OK 1, ERR 0. -/
def keyed (sbox : SBox) : State := { fresh sbox with k := keyEx, status := 3 }

/-- An engine in the fault state of IllegalCommand, its key loaded. -/
def faulted : State := { keyed sboxT1 with status := 0x17 }

/-- Bytes as a buffer from address 0 on. -/
def bytes (l : List Byte) : Memory := (List.range l.length).zip l

/-- The same engine with one host action pending. -/
def pending (s : State) (act : HostAction) : State := { s with port := [act] }

/-- What a test looks at in the next state. -/
def observe {α : Type} (o : Host.Outcome State Fault Refusal) (f : State → α) : Option α :=
  match o with
  | .next s => some (f s)
  | _ => none

/-! ### Well-formedness -/

theorem test_ill_formed_ldkey : ¬ (Instr.ldkey 256).WellFormed := by decide
theorem test_ill_formed_subst_table : ¬ (Instr.subst 256 0).WellFormed := by decide
theorem test_ill_formed_subst_nibble : ¬ (Instr.subst 0 256).WellFormed := by decide
theorem test_ill_formed_subkey : ¬ (Instr.subkey 256).WellFormed := by decide

/-! ### Decoding (95 sections 3 to 7) -/

theorem test_decode_ldkey : decode 0x01000008 = .command (.ldkey 8) := by decide
theorem test_decode_subst : decode 0x10000504 = .command (.subst 5 4) := by decide
theorem test_decode_xform : decode 0x11000000 = .command .xform := by decide
theorem test_decode_subkey : decode 0x1200001A = .command (.subkey 26) := by decide
theorem test_decode_encblk : decode 0x20000000 = .command .encblk := by decide
theorem test_decode_decblk : decode 0x21000000 = .command .decblk := by decide
theorem test_decode_encstr : decode 0x30000000 = .command .encstr := by decide
theorem test_decode_decstr : decode 0x31000000 = .command .decstr := by decide

/-- 95 section 7: the all-zero and the all-ones word, a word with a bit in 23:16, an I1 word with a bit in 15:8, a Z word
with a bit in 7:0. -/
theorem test_illegal_words :
    decode 0x00000000 = .illegal .undefinedOpcode ∧ decode 0xFFFFFFFF = .illegal .reservedNotZero ∧
    decode 0x10010000 = .illegal .reservedNotZero ∧ decode 0x01000108 = .illegal .unusedImmediateNotZero ∧
    decode 0x20000001 = .illegal .unusedImmediateNotZero := by decide

/-! ### One or two results per command -/

/-- 95 section 3.1, `SBOX_T1`. -/
theorem test_subst_entry : observe (exec (.subst 5 4) (fresh sboxT1)) State.res = some 0x00000007 := by
  decide +kernel

/-- 95 section 3.1: the nearest refused nibble, ERR = 4 beside TBL_OK. -/
theorem test_subst_index : observe (exec (.subst 0 16) (fresh sboxT1)) State.status = some 0x11 := by
  decide +kernel

/-- 95 section 3.2, last row, `SBOX_T1`. -/
theorem test_xform_t1 :
    observe (exec .xform { fresh sboxT1 with acc := 0x00112233, sk := 0x12345678 }) State.res = some 0xFFF467A3 := by
  decide +kernel

/-- 95 section 3.2: bit 21 wraps to bit 0, `SBOX_ID`. -/
theorem test_xform_wrap : observe (exec .xform { fresh sboxId with acc := 0x00200000 }) State.res = some 1 := by
  decide +kernel

/-- 95 section 4: `SUBKEY 24` is K[7] again. -/
theorem test_subkey_turn : observe (exec (.subkey 24) (keyed sboxId)) State.res = some 0x2468ACE0 := by
  decide +kernel

/-- 95 section 4: `SUBKEY 40` before any LDKEY raises KeyNotLoaded, ERR = 6. -/
theorem test_subkey_priority : observe (exec (.subkey 40) (fresh sboxId)) State.err = some 6 := by decide +kernel

/-- 95 section 4: `LDKEY 8` copies KIN and sets KEY_OK. -/
theorem test_ldkey :
    observe (exec (.ldkey 8) { fresh sboxId with kin := keyEx }) (fun s => (s.k, s.status)) = some (keyEx, 3) := by
  decide +kernel

/-- 95 section 4: `LDKEY 7` raises InvalidKeyLength, ERR = 2, KEY_OK unchanged. -/
theorem test_ldkey_length : observe (exec (.ldkey 7) (fresh sboxId)) State.status = some 9 := by decide +kernel

/-- 95 section 5.1, `SBOX_T1`. -/
theorem test_encblk :
    observe (exec .encblk { keyed sboxT1 with blk := 0x0011223344556677 }) State.blk = some 0xD751411415F5C2C2 := by
  decide +kernel

/-- 95 section 5.2: the first round, `SBOX_ID`. -/
theorem test_first_round :
    feistelRound sboxId (0x00112233, 0x44556677) 0x12345678 = (0x6F903EE5, 0x00112233) := by decide +kernel

/-- 95 section 5.1, `SBOX_ID`: a block that ENCBLK did not produce. -/
theorem test_decblk :
    observe (exec .decblk { keyed sboxId with blk := 0x0011223344556677 }) State.blk = some 0x4EDA3A590A319699 := by
  decide +kernel

/-- 95 section 6.1: "HELLO" 00, `SBOX_T1`. -/
theorem test_encstr :
    observe (exec .encstr { keyed sboxT1 with ibuf := bytes [0x48, 0x45, 0x4C, 0x4C, 0x4F, 0x00], ilen := 6 })
      (fun s => (s.olen, s.obuf)) = some (8, bytes [0xA9, 0x2F, 0xCA, 0x9E, 0xCC, 0x78, 0xA5, 0x74]) := by
  decide +kernel

/-- 95 section 6.1: the empty input gives one block, `SBOX_ID`. -/
theorem test_encstr_empty :
    observe (exec .encstr (keyed sboxId)) (fun s => (s.olen, s.obuf)) =
      some (8, bytes [0x29, 0x3B, 0x2E, 0xC6, 0x7C, 0xE5, 0x9F, 0xA0]) := by
  decide +kernel

/-- 95 section 6.2: the ciphertext of "HELLO" 00 gives "HELLO", `SBOX_ID`. -/
theorem test_decstr :
    observe
      (exec .decstr
        { keyed sboxId with ibuf := bytes [0x8B, 0xF3, 0xEC, 0x08, 0xEC, 0xE3, 0x37, 0xEE], ilen := 8 })
      (fun s => (s.olen, s.obuf)) = some (5, bytes [0x48, 0x45, 0x4C, 0x4C, 0x4F]) := by
  decide +kernel

/-- 95 section 6.2: a length of 5 raises InvalidCiphertextLength, ERR = 3. -/
theorem test_decstr_length : observe (exec .decstr { keyed sboxId with ilen := 5 }) State.err = some 3 := by
  decide +kernel

/-! ### The step -/

/-- 10_state R43, 95 section 1: which of the named table sets are valid. -/
theorem test_tables : tablesValid sboxId = true ∧ tablesValid sboxT1 = true ∧ tablesValid sboxBad = false := by
  decide +kernel

/-- 95 section 7: reset with `SBOX_BAD` leaves TBL_OK 0 and ERR 1. -/
theorem test_reset_malformed : observe (step (pending (keyed sboxBad) .reset)) State.status = some 4 := by
  decide +kernel

/-- 95 section 7: an Illegal word sets ERR to 5. -/
theorem test_illegal_step : observe (step (pending (keyed sboxT1) (.command 0))) State.status = some 0x17 := by
  decide +kernel

/-- 60_exceptions R194: the fault state refuses `SUBST 3, 10`. -/
theorem test_fault_refuses : observe (step (pending faulted (.command 0x1000030A))) State.res = some 0 := by
  decide +kernel

/-- 30_encoding R90: the word of a table row is the command the next step runs. -/
theorem test_fetch_word : step (State.reset.withFetchWord 32 0x1000030A) = exec (.subst 3 10) State.reset := rfl

/-! ### The invariant -/

/-- The invariant holds after a reset with any tables. -/
theorem inv_fresh (sbox : SBox) : (fresh sbox).Inv := by
  have hs : (fresh sbox).status = if tablesValid sbox then 1 else 4 := by
    simp only [fresh, State.resetValues]; cases tablesValid sbox <;> decide
  refine ⟨⟨?_, ?_, ?_, ?_⟩, fun _ => rfl, ⟨List.Pairwise.nil, List.Pairwise.nil, fun a => ?_⟩⟩
  · rw [hs]; split <;> decide
  · rw [State.err, hs]; split <;> decide
  · rw [State.tblOk, hs]; show _ = tablesValid sbox
    cases tablesValid sbox <;> decide
  · rw [State.tblOk, State.err, hs]; split <;> decide
  · exact ⟨fun h => absurd h Bool.false_ne_true, fun h => absurd h (Nat.not_lt_zero a)⟩

/-- An engine with a key loaded, a stream in each buffer and a command pending. -/
def busy : State :=
  { keyed sboxT1 with
    ibuf := bytes [0x41, 0x42]
    ilen := 2
    obuf := [(0, 0x41)]
    olen := 1
    port := [.command 0x20000000] }

theorem inv_busy : busy.Inv := by
  refine ⟨⟨by decide, by decide, by decide +kernel, by decide⟩, fun h => absurd h (by decide),
    ⟨by decide, by decide, fun a => ?_⟩⟩
  have : busy.obuf.find a = if 0 = a then some 0x41 else none := rfl
  rw [this, show busy.olen = 1 from rfl]
  by_cases h : a = 0
  · subst h; decide
  · rw [if_neg (Ne.symm h)]; simp; omega

/-! ### Witnesses: the hypotheses of each statement are met -/

theorem witness_EncodeThenDecodeGivesCommand :
    (Instr.ldkey 255).WellFormed ∧ (Instr.subst 255 255).WellFormed ∧ (Instr.subst 0 0).WellFormed ∧
    Instr.xform.WellFormed ∧ (Instr.subkey 255).WellFormed ∧ Instr.decstr.WellFormed := by decide

theorem witness_DecodedWordIsTheEncoding : decode 0x1000FFFF = .command (.subst 255 255) := by decide

theorem witness_DecoderAgreesWithOpcodeTable :
    (0x010000FF : Word) &&& 0xFFFFFF00 = 0x01000000 ∧ decode 0x010000FF = .command (.ldkey 255) := by decide

theorem witness_IllegalWordsRaiseIllegalCommand :
    (pending (fresh sboxId) (.command 0x20000001)).Ready ∧
    (pending (fresh sboxId) (.command 0x20000001)).port = .command 0x20000001 :: [] ∧
    decode 0x20000001 = .illegal .unusedImmediateNotZero := by decide

theorem witness_StepRunsTheDecodedCommand :
    busy.port = .command 0x20000000 :: [] ∧ decode 0x20000000 = .command .encblk := by decide

theorem witness_IdleEngineKeepsItsState : State.reset.port = [] := rfl

theorem witness_FaultStateLastsUntilReset :
    faulted.err ≠ 0#3 ∧ (pending faulted (.command 0)).port = .command 0 :: [] ∧
    (pending faulted (.write (.acc 7))).port = .write (.acc 7) :: [] ∧
    (pending faulted (.read .status)).port = .read .status :: [] ∧ faulted.port.head? ≠ some .reset ∧
    (∃ t, step faulted = .next t) ∧
    (pending faulted .reset).port = .reset :: [] ∧ tablesValid (pending faulted .reset).sbox = true := by
  refine ⟨by decide, rfl, rfl, rfl, by decide, ⟨_, rfl⟩, rfl, by decide +kernel⟩

/-- A fault state, an Illegal word, no key with an operand out of range, an own error, and none. -/
theorem witness_ErrorPriority :
    (pending faulted (.command 0x12000028)).port = .command 0x12000028 :: [] ∧ faulted.err ≠ 0#3 ∧
    decode 0x12000128 = .illegal .unusedImmediateNotZero ∧
    (decode 0x12000028 = .command (.subkey 40) ∧ readsKey (.subkey 40) = true ∧ (fresh sboxId).keyOk = false) ∧
    ownError (.subkey 40) (keyed sboxId) = some .invalidIndex ∧ ownError (.subkey 31) (keyed sboxId) = none := by
  decide

theorem witness_ErrorsArePrecise :
    (pending (fresh sboxId) (.command 0x01000007)).port = .command 0x01000007 :: [] ∧
    (pending (fresh sboxId) (.command 0x01000007)).err = 0#3 ∧
    ∃ t, step (pending (fresh sboxId) (.command 0x01000007)) = .next t ∧ t.err ≠ 0#3 :=
  ⟨rfl, by decide, _, rfl, by decide⟩

/-- One witness per code, and one command that raises none. -/
theorem witness_EachErrorHasItsCause :
    ((fresh sboxId).err = 0#3 ∧ ∃ t, exec (.ldkey 9) (fresh sboxId) = .next t ∧ t.err = 2#3) ∧
    ((keyed sboxId).err = 0#3 ∧ ∃ t, exec .decstr { keyed sboxId with ilen := 7 } = .next t ∧ t.err = 3#3) ∧
    (∃ t, exec (.subst 8 0) (fresh sboxId) = .next t ∧ t.err = 4#3) ∧
    (∃ t, exec (.subkey 32) (keyed sboxId) = .next t ∧ t.err = 4#3) ∧
    (∃ t, exec .encstr (fresh sboxId) = .next t ∧ t.err = 6#3) ∧
    (∃ t, exec (.subst 7 15) (fresh sboxId) = .next t ∧ t.err = 0#3) :=
  ⟨⟨by decide, _, rfl, by decide⟩, ⟨by decide, _, rfl, by decide⟩, ⟨_, rfl, by decide⟩, ⟨_, rfl, by decide⟩,
    ⟨_, rfl, by decide⟩, ⟨_, rfl, by decide⟩⟩

theorem witness_SubstCommand : (fresh sboxId).Ready ∧ ((8 : Nat) > 7 ∧ (16 : Nat) > 15) ∧ faulted.err ≠ 0#3 := by
  decide

theorem witness_TablesAreBijectionsOutsideTheFaultState : busy.Inv ∧ busy.err = 0#3 := ⟨inv_busy, by decide⟩

theorem witness_NoStepChangesTheTables :
    (∃ t, step busy = .next t) ∧ ∃ t, step (pending (fresh sboxBad) .reset) = .next t := ⟨⟨_, rfl⟩, ⟨_, rfl⟩⟩

theorem witness_TransformProperties :
    (∀ (t : Fin 8) (n : Nibble), substitute sboxId t n = n) ∧ (0xFFFFFFFF : Word) + 1 = 0x80000000 + 0x80000000 ∧
    tablesValid sboxT1 = true := by
  refine ⟨?_, by decide, by decide +kernel⟩
  have h : ∀ (t : Fin 8) (n : Fin 16), substitute sboxId t (BitVec.ofFin n) = BitVec.ofFin n := by decide +kernel
  exact fun t n => h t n.toFin

theorem witness_XformCommand : (fresh sboxT1).Ready ∧ faulted.err ≠ 0#3 := by decide

theorem witness_SubkeySchedule : (23 : Nat) < 24 ∧ (24 : Nat) ≤ 24 ∧ (24 : Nat) < 32 ∧ (31 : Nat) < 32 := by decide

theorem witness_SubkeyCommand :
    (keyed sboxId).ReadyWithKey ∧ ((31 : Nat) ≤ 31 ∧ (32 : Nat) > 31) ∧
    ((fresh sboxId).err = 0#3 ∧ (fresh sboxId).keyOk = false) ∧ faulted.err ≠ 0#3 := by decide

theorem witness_LdkeyCommand :
    (fresh sboxId).Ready ∧ ((7 : Nat) ≠ 8 ∧ (9 : Nat) ≠ 8) ∧ faulted.err ≠ 0#3 := by decide

theorem witness_OnlyLdkeyWritesTheKey :
    (∀ n, Instr.decstr ≠ .ldkey n) ∧ ∃ t, exec .decstr (keyed sboxT1) = .next t :=
  ⟨fun _ h => Instr.noConfusion h, _, rfl⟩

/-- The bounds of CNT: 0 and 31 take a round, 32 and the largest value of the register take none. -/
theorem witness_SequencerComputesTheBlockFunctions :
    (((keyed sboxId).seqStart 0 dirDecrypt).seq.cnt.toNat < 32) ∧
    ({ keyed sboxId with seq := ⟨1, 2, 31, 1, 0⟩ } : State).seq.cnt.toNat < 32 ∧
    32 ≤ ({ keyed sboxId with seq := ⟨1, 2, 32, 0, 0⟩ } : State).seq.cnt.toNat ∧
    32 ≤ ({ keyed sboxId with seq := ⟨1, 2, 63, 0, 0⟩ } : State).seq.cnt.toNat := by decide

theorem witness_EncblkCommand :
    (keyed sboxT1).ReadyWithKey ∧ ((fresh sboxT1).err = 0#3 ∧ (fresh sboxT1).keyOk = false) ∧
    faulted.err ≠ 0#3 := by decide

theorem witness_DecblkCommand :
    (keyed sboxT1).ReadyWithKey ∧ ((fresh sboxT1).err = 0#3 ∧ (fresh sboxT1).keyOk = false) ∧
    faulted.err ≠ 0#3 := by decide

/-- Two states that differ, in RES and in both buffers. -/
theorem witness_BlockCommandsAreDeterministic :
    busy.ReadyWithKey ∧ ({ keyed sboxT1 with res := 9 } : State).ReadyWithKey ∧
    busy.blk = ({ keyed sboxT1 with res := 9 } : State).blk ∧ busy.k = ({ keyed sboxT1 with res := 9 } : State).k ∧
    busy.sbox = ({ keyed sboxT1 with res := 9 } : State).sbox ∧ busy.res ≠ 9 :=
  ⟨by decide, by decide, rfl, rfl, rfl, by decide⟩

/-- A larger multiple of 8 than 7 and than 8. -/
theorem witness_PaddingLength : ((7 : Nat) < 8 ∧ 8 % 8 = 0) ∧ ((8 : Nat) < 16 ∧ 16 % 8 = 0) := by decide

theorem witness_StripRemovesEveryTrailingZero :
    (∀ x ∈ ([0, 0] : List Byte), x = 0) ∧ ([0, 0, 0, 0, 0, 0, 0, 0] : List Byte).length % 8 = 0 ∧
    0 < ([0, 0, 0, 0, 0, 0, 0, 0] : List Byte).length / 8 := by decide

/-- The blocks of a padded input of 7 and of 8 bytes, and of a ciphertext of 16, of which the last is block 1. -/
theorem witness_StreamsWorkBlockByBlock :
    0 < 7 / 8 + 1 ∧ 1 < 8 / 8 + 1 ∧ (zeros 16).length % 8 = 0 ∧ 1 < (zeros 16).length / 8 := by decide

/-- Every ILEN meets the first clause: 0, 7 and 8 do. -/
theorem witness_EncstrCommand :
    (keyed sboxT1).ReadyWithKey ∧ ({ keyed sboxT1 with ilen := 7 } : State).ReadyWithKey ∧
    ({ keyed sboxT1 with ilen := 8 } : State).ReadyWithKey ∧
    ((fresh sboxT1).err = 0#3 ∧ (fresh sboxT1).keyOk = false) ∧ faulted.err ≠ 0#3 := by decide

/-- ILEN 0 and 8 are accepted, 7 and 9 are not. -/
theorem witness_DecstrCommand :
    ((keyed sboxT1).ReadyWithKey ∧ (keyed sboxT1).ilen % 8 = 0) ∧
    (({ keyed sboxT1 with ilen := 8 } : State).ReadyWithKey ∧ ({ keyed sboxT1 with ilen := 8 } : State).ilen % 8 = 0) ∧
    (({ keyed sboxT1 with ilen := 7 } : State).ReadyWithKey ∧ ({ keyed sboxT1 with ilen := 7 } : State).ilen % 8 ≠ 0) ∧
    ({ keyed sboxT1 with ilen := 9 } : State).ilen % 8 ≠ 0 ∧
    ((fresh sboxT1).err = 0#3 ∧ (fresh sboxT1).keyOk = false) ∧ faulted.err ≠ 0#3 := by decide

theorem witness_StreamLengths :
    ((zeros 8).length % 8 = 0 ∧ 0 < (zeros 8).length / 8) ∧
    ({ keyed sboxT1 with ilen := 15 } : State).ReadyWithKey ∧
    ({ keyed sboxT1 with ilen := 15 } : State).ilen % 8 ≠ 0 := by decide

/-- 95 section 2.3: "HELLO" 00. -/
theorem witness_StreamRoundTrip :
    ([0x48, 0x45, 0x4C, 0x4C, 0x4F, 0x00] : List Byte) = [0x48, 0x45, 0x4C, 0x4C, 0x4F] ++ zeros 1 ∧
    (∃ init last, ([0x48, 0x45, 0x4C, 0x4C, 0x4F] : List Byte) = init ++ [last] ∧ last ≠ 0) ∧
    (zeros 3 : List Byte) = [] ++ zeros 3 :=
  ⟨by decide, ⟨[0x48, 0x45, 0x4C, 0x4C], 0x4F, rfl, by decide⟩, rfl⟩

theorem witness_RepeatedStreamCommandGivesTheSame :
    busy.ReadyWithKey ∧ (keyed sboxId).ReadyWithKey ∧ (keyed sboxId).ilen % 8 = 0 := by decide

/-- Two states that differ, in RES and in what OBUF holds. -/
theorem witness_StreamCommandsKeepNothing :
    ({ busy with ilen := 0 } : State).ReadyWithKey ∧ (keyed sboxT1).ReadyWithKey ∧
    ({ busy with ilen := 0 } : State).inputBytes = (keyed sboxT1).inputBytes ∧
    busy.k = (keyed sboxT1).k ∧ busy.sbox = (keyed sboxT1).sbox ∧ ({ busy with ilen := 0 } : State).ilen % 8 = 0 ∧
    busy.obuf ≠ (keyed sboxT1).obuf :=
  ⟨by decide, by decide, rfl, rfl, rfl, by decide, by decide⟩

/-- For each clause a command it covers, with a next state. -/
theorem witness_CommandsWriteOnlyTheirResults :
    (∃ t, exec (.ldkey 8) busy = .next t) ∧ busy.keyOk = true ∧
    ((∀ n, Instr.xform ≠ .ldkey n) ∧ ∃ t, exec .xform busy = .next t) ∧
    ((∀ a b, Instr.encblk ≠ .subst a b) ∧ Instr.encblk ≠ .xform ∧ (∀ r, Instr.encblk ≠ .subkey r) ∧
      Instr.encblk ≠ .encstr ∧ Instr.encblk ≠ .decstr ∧ ∃ t, exec .encblk busy = .next t) ∧
    (Instr.xform ≠ .encblk ∧ Instr.xform ≠ .decblk ∧ Instr.xform ≠ .encstr ∧ Instr.xform ≠ .decstr) :=
  ⟨⟨_, rfl⟩, by decide, ⟨fun _ h => Instr.noConfusion h, _, rfl⟩,
    ⟨fun _ _ h => Instr.noConfusion h, by decide, fun _ h => Instr.noConfusion h, by decide, by decide, _, rfl⟩,
    by decide⟩

theorem witness_ResetLeavesTheResetValues :
    (pending (keyed sboxT1) .reset).port = .reset :: [] ∧ tablesValid sboxT1 = true ∧
    (pending (keyed sboxBad) .reset).port = .reset :: [] ∧ tablesValid sboxBad = false :=
  ⟨rfl, by decide +kernel, rfl, by decide +kernel⟩

/-- A reset with an action behind it and a value read before it. -/
theorem witness_ResetLeavesTheHostSide :
    ({ keyed sboxT1 with port := [.reset, .command 0], hostOut := some (.length 3) } : State).port =
      .reset :: [.command 0] := rfl

theorem witness_OnlyResetClearsErrAndKeyOk :
    ((∃ t, step (pending faulted (.command 0x01000008)) = .next t) ∧
      (pending faulted (.command 0x01000008)).port.head? ≠ some .reset ∧ faulted.err ≠ 0#3) ∧
    ((∃ t, step busy = .next t) ∧ busy.port.head? ≠ some .reset ∧ busy.keyOk = true) :=
  ⟨⟨⟨_, rfl⟩, by decide, by decide⟩, ⟨_, rfl⟩, by decide, by decide⟩

theorem witness_MalformedTablesStopTheEngine :
    (pending (keyed sboxBad) .reset).port = .reset :: [] ∧
    ((∃ t, step (fresh sboxBad) = .next t ∧ t.err = 1#3) ∧ (fresh sboxBad).port.head? ≠ some .reset) ∧
    ((fresh sboxBad).Inv ∧ tablesValid (fresh sboxBad).sbox = false) :=
  ⟨rfl, ⟨⟨_, rfl, by decide +kernel⟩, by decide⟩, inv_fresh sboxBad, by decide +kernel⟩

/-- One allowed write of each kind, at the last KIN register, and a write the host has no right to. -/
theorem witness_HostWritesWithinTheirRights :
    (pending busy (.write (.kin 7 1))).port = .write (.kin 7 1) :: [] ∧ (0 : Fin 8) ≠ 7 ∧
    (pending busy (.write (.acc 1))).port = .write (.acc 1) :: [] ∧
    (pending busy (.write (.sk 1))).port = .write (.sk 1) :: [] ∧
    (pending busy (.write (.blk 1))).port = .write (.blk 1) :: [] ∧
    (pending busy (.write (.ilen 1))).port = .write (.ilen 1) :: [] ∧
    (pending busy (.write (.ibuf 9 1))).port = .write (.ibuf 9 1) :: [] ∧
    (pending busy (.write (.status 1))).port = .write (.status 1) :: [] ∧ HostWrite.status 1 ≠ .acc 1 := by decide

/-- A register the host may read, a byte below and a byte at the length, and a register it may not read. -/
theorem witness_HostReadsWithinTheirRights :
    (pending busy (.read .res)).port = .read .res :: [] ∧
    ((pending busy (.read (.ibuf 1))).port = .read (.ibuf 1) :: [] ∧ 1 < busy.ilen) ∧
    ((pending busy (.read (.obuf 0))).port = .read (.obuf 0) :: [] ∧ 0 < busy.olen) ∧
    (pending busy (.read (.obuf 1))).port = .read (.obuf 1) :: [] ∧
    (pending busy (.read (.k 7))).port = .read (.k 7) :: [] ∧
    HostReg.cnt ∈ ([.a, .b, .cnt, .dir, .bi] : List HostReg) := by decide

theorem witness_EveryStepKeepsTheInvariant : busy.Inv ∧ ∃ t, step busy = .next t := ⟨inv_busy, _, rfl⟩

end Sys2Proof.Tests
end

section
/-! PROOFS. 10_state: validity of the table set as a bijection per table (R43), and what a reset leaves (R55). -/

namespace Sys2Proof.Machine

/-! ### The table set -/

/-- A vector's list is its entries in index order, so it repeats none exactly when no two indices read alike. -/
theorem vector_nodup_toList_iff_injective_get {α : Type} {n : Nat} (v : Vector α n) :
    v.toList.Nodup ↔ Function.Injective v.get := by
  have hofFn : v = Vector.ofFn v.get := Vector.ext fun i hi => by simp [Vector.get_eq_getElem]
  have hlist : v.toList = List.ofFn v.get := (congrArg Vector.toList hofFn).trans Vector.toList_ofFn
  rw [hlist, List.nodup_ofFn]

/-- The engine's test, read by table number: no table holds an entry twice. -/
theorem tablesValid_iff_injective (sbox : SBox) :
    tablesValid sbox = true ↔ ∀ t : Fin 8, Function.Injective (sbox.get t).get := by
  rw [tablesValid, Vector.all_toList, Vector.all_eq_true]
  simp only [decide_eq_true_eq, vector_nodup_toList_iff_injective_get]
  exact (Fin.forall_iff (p := fun t : Fin 8 => Function.Injective (sbox.get t).get)).symm

/-- There are as many nibbles as places in a table, so a table that repeats no entry takes every nibble (R43). -/
theorem nibbleTable_bijective_iff_injective (f : Fin 16 → Nibble) :
    Function.Bijective f ↔ Function.Injective f := by
  have hcard : Fintype.card (Fin 16) = Fintype.card Nibble :=
    Fintype.card_congr (BitVec.equivFin (m := 4)).symm.toEquiv
  rw [Fintype.bijective_iff_injective_and_card, and_iff_left hcard]

/-- Settles O14: the test makes each table injective, and an injection of sixteen places into the nibbles is a
bijection. -/
theorem validTablesAreBijections : Obligations.ValidTablesAreBijections := by
  intro sbox
  rw [tablesValid_iff_injective]
  exact forall_congr' fun t => (nibbleTable_bijective_iff_injective (sbox.get t).get).symm

/-! ### Reset -/

/-- A step with an action pending takes that action, on the state that no longer has it pending (R92). -/
theorem step_of_port_cons {s : State} {act : HostAction} {rest : List HostAction} (h : s.port = act :: rest) :
    step s = takeAction act (s.withPort rest) := by
  simp [step, takeNext, h]

/-- A step with a reset pending answers the state after reset. -/
theorem step_of_reset {s : State} {rest : List HostAction} (h : s.port = .reset :: rest) :
    step s = .next (s.withPort rest).hostReset := step_of_port_cons h

/-- STATUS as a number after reset: bit 0 alone with valid tables, else MalformedTable in bits 4:2 (R55). -/
theorem State.hostReset_status_value (s : State) : s.hostReset.status = if tablesValid s.sbox then 1 else 4 := by
  rw [State.hostReset_status]
  cases tablesValid s.sbox <;> decide

/-- Settles O44: the fields of STATUS are those reset packs into it, and every other piece of state is written with
its value of R55. -/
theorem resetLeavesTheResetValues : Obligations.ResetLeavesTheResetValues := by
  intro s rest hport
  exact ⟨_, step_of_reset hport, rfl,
    Status.tblOk_pack _ _ _, Status.keyOk_pack _ _ _, Status.err_pack _ _ _, Status.reserved_pack _ _ _,
    State.hostReset_status_value _,
    fun i => ⟨Vector.get_replicate 8 0 i, Vector.get_replicate 8 0 i⟩,
    rfl, rfl, rfl, rfl, rfl, rfl, fun _ => ⟨rfl, rfl⟩, rfl⟩

end Sys2Proof.Machine
end

section
/-! PROOFS. 20_memory: a block as bytes and bytes as a block (R61), and the streams chunk by chunk (R70, R171, R173).
-/

namespace Sys2Proof.Machine

/-! ### Little-endian bytes -/

/-- Reading bytes as a block is reading digits in base 256, least significant first, in the 64 bits of a block. -/
theorem fromLe64_toNat (bs : List Byte) :
    (fromLe64 bs).toNat = Nat.ofDigits 256 (bs.map BitVec.toNat) % 2 ^ 64 := by
  induction bs with
  | nil => rfl
  | cons b bs ih =>
    simp only [fromLe64, BitVec.toNat_add, BitVec.toNat_shiftLeft, BitVec.toNat_setWidth, ih, List.map_cons,
      Nat.ofDigits_cons, Nat.shiftLeft_eq]
    omega

/-- Up to eight bytes fit a block, so nothing is lost at its upper end. -/
theorem fromLe64_toNat_of_length_le {bs : List Byte} (h : bs.length ≤ 8) :
    (fromLe64 bs).toNat = Nat.ofDigits 256 (bs.map BitVec.toNat) := by
  have hdigits : Nat.ofDigits 256 (bs.map BitVec.toNat) < 256 ^ (bs.map BitVec.toNat).length :=
    Nat.ofDigits_lt_base_pow_length (by decide) fun x hx => by
      obtain ⟨b, -, rfl⟩ := List.mem_map.mp hx
      exact b.isLt
  have hfits : 256 ^ (bs.map BitVec.toNat).length ≤ 256 ^ 8 :=
    Nat.pow_le_pow_right (by decide) (by simpa using h)
  rw [fromLe64_toNat]
  exact Nat.mod_eq_of_lt (hdigits.trans_le hfits)

@[simp] theorem length_le64 (v : Block) : (le64 v).length = 8 := by simp [le64]

/-- Byte `i` of a stored block, by division (R61). -/
theorem le64_getElem? (v : Block) {i : Nat} (h : i < 8) :
    (le64 v)[i]? = some (BitVec.ofNat 8 (v.toNat / 2 ^ (8 * i))) := by
  have hbyte : (v >>> (8 * i)).setWidth 8 = BitVec.ofNat 8 (v.toNat / 2 ^ (8 * i)) :=
    BitVec.eq_of_toNat_eq (by simp [Nat.shiftRight_eq_div_pow])
  simp [le64, List.getElem?_range h, hbyte]

/-- The bytes of a stored block as numbers are its eight digits in base 256. -/
theorem le64_map_toNat (v : Block) :
    (le64 v).map BitVec.toNat = (List.range 8).map fun i => v.toNat / 256 ^ i % 256 := by
  simp [le64, Nat.shiftRight_eq_div_pow, Nat.pow_mul]

/-- The lowest `n` digits of a number, put together again, are the number below `b ^ n`. -/
theorem ofDigits_map_range_div_pow_mod (b v n : Nat) :
    Nat.ofDigits b ((List.range n).map fun i => v / b ^ i % b) = v % b ^ n := by
  induction n with
  | zero => simp [Nat.mod_one]
  | succ n ih =>
    rw [List.range_succ, List.map_append, Nat.ofDigits_append, ih, List.length_map, List.length_range, Nat.mod_pow_succ]
    simp

/-- Loading undoes storing (R61). -/
@[simp] theorem fromLe64_le64 (v : Block) : fromLe64 (le64 v) = v := by
  apply BitVec.eq_of_toNat_eq
  rw [fromLe64_toNat_of_length_le (length_le64 v).le, le64_map_toNat, ofDigits_map_range_div_pow_mod]
  exact Nat.mod_eq_of_lt v.isLt

/-- Settles O32: loading reads digits in base 256, storing writes them, and eight of them are the whole block. -/
theorem blocksAreLittleEndian : Obligations.BlocksAreLittleEndian := by
  refine ⟨fun c0 c1 c2 c3 c4 c5 c6 c7 => ?_, fun v i => le64_getElem? v i.isLt,
    fun v => ⟨length_le64 v, fromLe64_le64 v⟩⟩
  rw [fromLe64_toNat_of_length_le (by simp)]
  simp only [List.map_cons, List.map_nil, Nat.ofDigits_cons, Nat.ofDigits_nil]
  omega

/-! ### Streams by chunks -/

@[simp] theorem length_zeros (n : Nat) : (zeros n).length = n := List.length_replicate

/-- The padded length is one whole block more than the whole blocks of the data (R170). -/
theorem add_padLength (n : Nat) : n + padLength n = 8 * (n / 8 + 1) := by
  unfold padLength
  omega

@[simp] theorem length_mapBlocks (f : Block → Block) (n : Nat) (p : List Byte) :
    (mapBlocks f n p).length = 8 * n := by
  induction n generalizing p with
  | zero => rfl
  | succ n ih =>
    rw [mapBlocks, List.length_append, length_le64, ih]
    omega

/-- Output chunk `i` is the block function of input chunk `i` (R70). -/
theorem mapBlocks_chunk (f : Block → Block) {n i : Nat} (p : List Byte) (h : i < n) :
    ((mapBlocks f n p).drop (8 * i)).take 8 = le64 (f (fromLe64 ((p.drop (8 * i)).take 8))) := by
  induction n generalizing p i with
  | zero => exact absurd h (Nat.not_lt_zero i)
  | succ n ih =>
    rw [mapBlocks]
    cases i with
    | zero => exact List.take_left' (length_le64 _)
    | succ i =>
      have hskip : 8 * (i + 1) = 8 + 8 * i := by omega
      rw [hskip, ← List.drop_drop, List.drop_left' (length_le64 _), ih (p.drop 8) (Nat.lt_of_succ_lt_succ h),
        List.drop_drop]

/-- Encryption in whole blocks: those of the data and one more (R170, R171). -/
theorem encryptStream_eq_mapBlocks (sbox : SBox) (key : KeyWords) (d : List Byte) :
    encryptStream sbox key d =
      mapBlocks (encryptBlock sbox key) (d.length / 8 + 1) (d ++ zeros (padLength d.length)) := by
  have hblocks : (d ++ zeros (padLength d.length)).length / 8 = d.length / 8 + 1 := by
    rw [List.length_append, length_zeros, add_padLength, Nat.mul_div_cancel_left _ (by decide)]
  rw [encryptStream, hblocks]

@[simp] theorem length_encryptStream (sbox : SBox) (key : KeyWords) (d : List Byte) :
    (encryptStream sbox key d).length = d.length + padLength d.length := by
  rw [encryptStream_eq_mapBlocks, length_mapBlocks, add_padLength]

/-- Decryption before stripping: as long as the input, and its chunk `i` is the decryption of input chunk `i` (R173). -/
theorem decryptStream_eq_stripZeros_chunks (sbox : SBox) (key : KeyWords) {d : List Byte} (h : d.length % 8 = 0) :
    ∃ raw : List Byte, decryptStream sbox key d = stripZeros raw ∧ raw.length = d.length ∧
      ∀ i, i < d.length / 8 →
        (raw.drop (8 * i)).take 8 = le64 (decryptBlock sbox key (fromLe64 ((d.drop (8 * i)).take 8))) :=
  ⟨mapBlocks (decryptBlock sbox key) (d.length / 8) d, rfl,
    (length_mapBlocks _ _ _).trans (Nat.mul_div_cancel' (Nat.dvd_of_mod_eq_zero h)),
    fun _ hi => mapBlocks_chunk _ d hi⟩

/-- Settles O36: both streams are one block function put over whole chunks. -/
theorem streamsWorkBlockByBlock : Obligations.StreamsWorkBlockByBlock := by
  refine fun sbox key d => ⟨⟨length_encryptStream sbox key d, fun i hi => ?_⟩,
    decryptStream_eq_stripZeros_chunks sbox key⟩
  rw [encryptStream_eq_mapBlocks]
  exact mapBlocks_chunk _ _ hi

end Sys2Proof.Machine
end

section
/-! PROOFS. 30_encoding: which words are Illegal (R96, R97), and what a step does with one (R91, R199). -/

namespace Sys2Proof.Machine

/-! ### Illegal words -/

/-- Format I1 rejects exactly the words whose IMM1 is not zero (R93). -/
theorem decodeI1_illegal_iff (cw : Word) (mk : Nat → Instr) :
    (∃ why, decodeI1 cw mk = .illegal why) ↔ imm1Field cw ≠ 0 := by
  by_cases h : imm1Field cw ≠ 0
  · exact iff_of_true ⟨_, if_pos h⟩ h
  · rw [decodeI1, if_neg h]
    exact iff_of_false (by simp) h

/-- Format Z rejects exactly the words in which an immediate is not zero (R93). -/
theorem decodeZ_illegal_iff (cw : Word) (i : Instr) :
    (∃ why, decodeZ cw i = .illegal why) ↔ imm1Field cw ≠ 0 ∨ imm0Field cw ≠ 0 := by
  by_cases h : imm1Field cw ≠ 0 ∨ imm0Field cw ≠ 0
  · exact iff_of_true ⟨_, if_pos h⟩ h
  · rw [decodeZ, if_neg h]
    exact iff_of_false (by simp) h

/-- RSV is tested before the opcode (R96). -/
theorem decode_of_rsv_ne_zero {cw : Word} (h : rsvField cw ≠ 0) : decode cw = .illegal .reservedNotZero :=
  if_pos h

/-- No opcode but the eight of R95 is defined. -/
theorem decode_of_undefined_opcode {cw : Word} (hrsv : rsvField cw = 0)
    (hop : opField cw ∉ [0x01, 0x10, 0x11, 0x12, 0x20, 0x21, 0x30, 0x31]) :
    decode cw = .illegal .undefinedOpcode := by
  simp only [List.mem_cons, List.not_mem_nil, or_false, not_or] at hop
  simp only [decode, hrsv, hop, ne_eq, not_true_eq_false, if_false]

/-- With RSV zero and a defined opcode, the fields that the format of the opcode requires to be zero decide. -/
theorem decode_illegal_iff_of_defined_opcode {cw : Word} (hrsv : rsvField cw = 0)
    (hop : opField cw ∈ [0x01, 0x10, 0x11, 0x12, 0x20, 0x21, 0x30, 0x31]) :
    (∃ why, decode cw = .illegal why) ↔
      (opField cw ∈ [0x01, 0x12] ∧ imm1Field cw ≠ 0) ∨
      (opField cw ∈ [0x11, 0x20, 0x21, 0x30, 0x31] ∧ (imm1Field cw ≠ 0 ∨ imm0Field cw ≠ 0)) := by
  simp only [List.mem_cons, List.not_mem_nil, or_false] at hop
  rcases hop with hop | hop | hop | hop | hop | hop | hop | hop <;>
    simp [decode, hrsv, hop, decodeI1_illegal_iff, decodeZ_illegal_iff]

/-- The Illegal words, in the order of the decoder's tests: RSV, the opcode, the fields of its format (R97). -/
theorem decode_illegal_iff (cw : Word) :
    (∃ why, decode cw = .illegal why) ↔
      (opField cw ∉ [0x01, 0x10, 0x11, 0x12, 0x20, 0x21, 0x30, 0x31] ∨ rsvField cw ≠ 0 ∨
        (opField cw ∈ [0x01, 0x12] ∧ imm1Field cw ≠ 0) ∨
        (opField cw ∈ [0x11, 0x20, 0x21, 0x30, 0x31] ∧ (imm1Field cw ≠ 0 ∨ imm0Field cw ≠ 0))) := by
  by_cases hrsv : rsvField cw = 0
  · by_cases hop : opField cw ∈ [0x01, 0x10, 0x11, 0x12, 0x20, 0x21, 0x30, 0x31]
    · rw [decode_illegal_iff_of_defined_opcode hrsv hop, or_iff_right (not_not_intro hop),
        or_iff_right (not_not_intro hrsv)]
    · exact iff_of_true ⟨_, decode_of_undefined_opcode hrsv hop⟩ (.inl hop)
  · exact iff_of_true ⟨_, decode_of_rsv_ne_zero hrsv⟩ (.inr (.inl hrsv))

/-! ### The step on an Illegal word -/

/-- Taking an Illegal word outside the fault state raises IllegalCommand, whichever test it failed (R91, R199). -/
theorem takeCommand_of_illegal {s : State} {cw : Word} {why : IllegalWord} (h : s.Ready)
    (hd : decode cw = .illegal why) : takeCommand cw s = .next (s.raise .illegalCommand) := by
  rw [takeCommand, hd]
  exact runCommand_of_ready _ h

/-- Settles O5: the Illegal words by the decoder's tests, two of them by their fields, and the step as IllegalCommand
raised on the state that no longer has the word pending. -/
theorem illegalWordsRaiseIllegalCommand : Obligations.IllegalWordsRaiseIllegalCommand := by
  refine ⟨decode_illegal_iff, ⟨_, decode_of_undefined_opcode (by decide) (by decide)⟩,
    ⟨_, decode_of_rsv_ne_zero (by decide)⟩, fun s cw why rest hready hport hd => ?_⟩
  have hready' : (s.withPort rest).Ready := hready
  rw [step_of_port_cons hport]
  exact takeCommand_of_illegal hready' hd

end Sys2Proof.Machine
end

section
/-! PROOFS. 40_sbox_set: SUBST, its word and what it does (R122). -/

namespace Sys2Proof.Machine

/-! ### The word of SUBST -/

/-- Bits 31:16 are OP above RSV (R90): with the rest masked out, a word is these two as digits in base 256. -/
theorem and_upperHalf_toNat (cw : Word) :
    (cw &&& (0xFFFF0000 : Word)).toNat = 2 ^ 24 * (opField cw).toNat + 2 ^ 16 * (rsvField cw).toNat := by
  have hclear : cw &&& (0xFFFF0000 : Word) = (cw >>> 16) <<< 16 := by
    ext i hi
    interval_cases i <;> simp
  rw [hclear, BitVec.toNat_shiftLeft, BitVec.toNat_ushiftRight, opField, rsvField, BitVec.extractLsb'_toNat,
    BitVec.extractLsb'_toNat]
  omega

/-- The row of SUBST in R95 fixes OP and RSV, and nothing of the immediates. -/
theorem substRow_iff (cw : Word) :
    cw &&& (0xFFFF0000 : Word) = 0x10000000 ↔ opField cw = 0x10 ∧ rsvField cw = 0 := by
  have hword : (0x10000000 : Word).toNat = 2 ^ 24 * 16 := rfl
  have hop : (0x10 : BitVec 8).toNat = 16 := rfl
  have hrsv : (0 : BitVec 8).toNat = 0 := rfl
  rw [← BitVec.toNat_inj, ← BitVec.toNat_inj, ← BitVec.toNat_inj, and_upperHalf_toNat, hword, hop, hrsv]
  omega

/-- Format I1 decodes to its own command, of IMM0, when IMM1 is zero (R93). -/
theorem decodeI1_eq_command_iff (cw : Word) (mk : Nat → Instr) (i : Instr) :
    decodeI1 cw mk = .command i ↔ imm1Field cw = 0 ∧ mk (imm0Field cw).toNat = i := by
  by_cases h : imm1Field cw = 0#8 <;> simp [decodeI1, h]

/-- Format Z decodes to its own command when both immediates are zero (R93). -/
theorem decodeZ_eq_command_iff (cw : Word) (i j : Instr) :
    decodeZ cw i = .command j ↔ (imm1Field cw = 0 ∧ imm0Field cw = 0) ∧ i = j := by
  by_cases h : imm1Field cw = 0 ∧ imm0Field cw = 0
  · simp [decodeZ, h]
  · rw [decodeZ, if_pos (not_and_or.1 h)]
    exact iff_of_false (by simp) fun hcommand => h hcommand.1

/-- Opcode 0x10 with RSV zero is SUBST of the two immediates, whatever they are (R94, R95). -/
theorem decode_of_subst_opcode {cw : Word} (hop : opField cw = 0x10) (hrsv : rsvField cw = 0) :
    decode cw = .command (.subst (imm1Field cw).toNat (imm0Field cw).toNat) := by
  simp [decode, hop, hrsv]

/-- No word decodes to SUBST with another opcode, or with RSV not zero (R95, R96). -/
theorem fields_of_decode_eq_subst {cw : Word} {t n : Nat} (h : decode cw = .command (.subst t n)) :
    opField cw = 0x10 ∧ rsvField cw = 0 := by
  have hrsv : rsvField cw = 0 := by
    by_contra hrsv
    simp [decode_of_rsv_ne_zero hrsv] at h
  have hop : opField cw = 0x10 := by
    by_contra hop
    simp only [decode, hrsv, hop, ne_eq, not_true_eq_false, if_false] at h
    split_ifs at h <;> simp [decodeI1_eq_command_iff, decodeZ_eq_command_iff] at h
  exact ⟨hop, hrsv⟩

/-- The words of SUBST are those of its row (R95, R122). -/
theorem substRow_iff_decode (cw : Word) :
    cw &&& (0xFFFF0000 : Word) = 0x10000000 ↔
      decode cw = .command (.subst (imm1Field cw).toNat (imm0Field cw).toNat) :=
  (substRow_iff cw).trans ⟨fun ⟨hop, hrsv⟩ => decode_of_subst_opcode hop hrsv, fields_of_decode_eq_subst⟩

/-! ### What SUBST does -/

theorem substOperandsLegal_iff (t n : Nat) : substOperandsLegal t n = true ↔ t ≤ 7 ∧ n ≤ 15 := by
  simp [substOperandsLegal]

/-- Indices in range survive the cut to the index types: the lookup is the entry of the table set (R42). -/
theorem substitute_ofNat (sbox : SBox) (t : Fin 8) (n : Fin 16) :
    substitute sbox (Fin.ofNat 8 t) (BitVec.ofNat 4 n) = (sbox.get t).get n := by
  have hn : (BitVec.ofNat 4 n).toFin = n := Fin.ext (Nat.mod_eq_of_lt n.isLt)
  rw [substitute, Fin.ofNat_val_eq_self, hn]

theorem commandBody_subst_of_legal (s : State) (t : Fin 8) (n : Fin 16) :
    commandBody (.subst t n) s = { s with res := ((s.sbox.get t).get n).setWidth 32 } := by
  have hlegal : substOperandsLegal t n = true := (substOperandsLegal_iff t n).2 (by omega)
  rw [← substitute_ofNat]
  exact if_pos hlegal

theorem commandBody_subst_of_illegal (s : State) {t n : Nat} (h : t > 7 ∨ n > 15) :
    commandBody (.subst t n) s = s.raise .invalidIndex :=
  if_neg fun hlegal => by
    have hle := (substOperandsLegal_iff t n).1 hlegal
    omega

/-- Outside the fault state SUBST runs its own rule, key or no key (R91, R122). -/
theorem exec_subst_of_ready {s : State} (h : s.Ready) (t n : Nat) :
    exec (.subst t n) s = .next (commandBody (.subst t n) s) :=
  (exec_eq_runCommand (.subst t n) s).trans (runCommand_of_ready _ h)

/-- In the fault state every command is refused (R194). -/
theorem exec_of_fault {s : State} (h : s.err ≠ 0#3) (i : Instr) : exec i s = .next s :=
  (exec_eq_runCommand i s).trans (runCommand_of_fault _ _ h)

/-- Settles O13: the word by its fields, then SUBST by the cases of its frame: a legal lookup, InvalidIndex raised,
the fault state. -/
theorem substCommand : Obligations.SubstCommand := by
  refine ⟨substRow_iff_decode, fun s t n hready => ?_, fun s t n hready hrange => ?_,
    fun s t n hfault => exec_of_fault hfault (.subst t n)⟩
  · rw [exec_subst_of_ready hready, commandBody_subst_of_legal]
  · rw [exec_subst_of_ready hready, commandBody_subst_of_illegal s hrange]
    rfl

end Sys2Proof.Machine
end

section
/-! PROOFS. 41_round_transform: the bits of the transform (R130), and XFORM, its word and what it does (R131). -/

namespace Sys2Proof.Machine

/-! ### The rotation -/

/-- Below the width, the two shifts are the library's rotation (00_scope R9). -/
theorem rotl32_eq_rotateLeft (v : Word) {s : Nat} (h : s < 32) : rotl32 v s = v.rotateLeft s := by
  rw [BitVec.rotateLeft_def, Nat.mod_eq_of_lt h]
  rfl

/-- The rotation by `s` moves bit `k` to bit `(k + s) mod 32` (R130, step 3). -/
theorem getLsbD_rotl32 (v : Word) {s k : Nat} (hs : s < 32) (hk : k < 32) :
    (rotl32 v s).getLsbD ((k + s) % 32) = v.getLsbD k := by
  rw [rotl32_eq_rotateLeft v hs, BitVec.getLsbD_rotateLeft, Nat.mod_eq_of_lt hs]
  by_cases hinside : k + s < 32
  · simp [Nat.mod_eq_of_lt hinside, hinside]
  · have hindex : (k + s) % 32 = k + s - 32 := by omega
    have hlow : k + s - 32 < s := by omega
    have hback : 32 - s + (k + s - 32) = k := by omega
    simp [hindex, hlow, hback]

/-! ### The substituted word -/

/-- A bit of a fold of ORs is set when it is set at the start or in one of the operands. -/
theorem getLsbD_foldl_or {α : Type} {w : Nat} (f : α → BitVec w) (l : List α) (v : BitVec w) (k : Nat) :
    (l.foldl (fun acc x => acc ||| f x) v).getLsbD k = (v.getLsbD k || l.any fun x => (f x).getLsbD k) := by
  induction l generalizing v with
  | nil => simp
  | cons x l ih => simp [ih, Bool.or_assoc]

/-- A nibble put at position `i` of a word has no bit at any other position `j`. -/
theorem getLsbD_placedNibble (x : Nibble) (i j : Fin 8) (b : Fin 4) :
    (x.setWidth 32 <<< (4 * i.val)).getLsbD (4 * j.val + b.val) = (decide (i = j) && x.getLsbD b.val) := by
  have hword : 4 * j.val + b.val < 32 := by omega
  rw [BitVec.getLsbD_shiftLeft, BitVec.getLsbD_setWidth]
  rcases lt_trichotomy i j with hlt | rfl | hgt
  · have habove : x.getLsbD (4 * j.val + b.val - 4 * i.val) = false := BitVec.getLsbD_of_ge _ _ (by omega)
    simp [hlt.ne, habove]
  · have hbit : b.val < 32 := by omega
    simp [hword, hbit]
  · have hbelow : 4 * j.val + b.val < 4 * i.val := by omega
    simp [hgt.ne', hbelow]

/-- Nibble `j` of the substituted word comes from table `j` and nibble `j` of the sum alone (R130, step 2). -/
theorem getLsbD_substituteNibbles (sbox : SBox) (sum : Word) (j : Fin 8) (b : Fin 4) :
    (substituteNibbles sbox sum).getLsbD (4 * j.val + b.val) =
      (substitute sbox j (nibbleAt sum j)).getLsbD b.val := by
  rw [substituteNibbles, getLsbD_foldl_or, Bool.eq_iff_iff]
  simp only [getLsbD_placedNibble]
  simp

/-- Nibble `j` as a table index is digit `j` in base 16 (00_scope R8). -/
theorem nibbleAt_toFin (v : Word) (j : Fin 8) : (nibbleAt v j).toFin = Fin.ofNat 16 (v.toNat / 16 ^ j.val) := by
  have hbase : 16 ^ j.val = 2 ^ (4 * j.val) := by rw [Nat.pow_mul]
  rw [hbase, ← Nat.shiftRight_eq_div_pow]
  exact Fin.ext (BitVec.extractLsb'_toNat ..)

/-- Settles O17: undo the rotation, then the substitution, and read the nibble of the sum as a digit. -/
theorem transformAddsSubstitutesRotates : Obligations.TransformAddsSubstitutesRotates := by
  intro sbox acc sk j b
  have hbit : 4 * j.val + b.val < 32 := by omega
  rw [transform, getLsbD_rotl32 _ (by decide) hbit, getLsbD_substituteNibbles, substitute, nibbleAt_toFin,
    BitVec.toNat_add]

/-! ### A word and its fields -/

/-- The four fields of a command word are its digits in base 256 (R90). -/
theorem word_toNat_eq_fields (cw : Word) :
    cw.toNat = 2 ^ 24 * (opField cw).toNat + 2 ^ 16 * (rsvField cw).toNat + 2 ^ 8 * (imm1Field cw).toNat +
      (imm0Field cw).toNat := by
  simp only [opField, rsvField, imm1Field, imm0Field, BitVec.extractLsb'_toNat, Nat.shiftRight_eq_div_pow]
  omega

/-- A word put together from an opcode and two immediates has these as digits in base 256 (R93). -/
theorem commandWord_toNat (op : BitVec 8) (imm1 imm0 : Nat) :
    (commandWord op imm1 imm0).toNat = 2 ^ 24 * op.toNat + 2 ^ 8 * (imm1 % 256) + imm0 % 256 := by
  have himm0 : imm0 % 256 < 2 ^ 8 := Nat.mod_lt _ (by decide)
  have himms : (imm1 % 256) <<< 8 + imm0 % 256 < 2 ^ 24 := by omega
  have hop : (op.setWidth 32 <<< 24).toNat = op.toNat <<< 24 := by
    simp only [BitVec.toNat_shiftLeft, BitVec.toNat_setWidth]
    omega
  have himm1 : ((BitVec.ofNat 8 imm1).setWidth 32 <<< 8).toNat = (imm1 % 256) <<< 8 := by
    simp only [BitVec.toNat_shiftLeft, BitVec.toNat_setWidth, BitVec.toNat_ofNat]
    omega
  have hlast : ((BitVec.ofNat 8 imm0).setWidth 32).toNat = imm0 % 256 := by
    simp only [BitVec.toNat_setWidth, BitVec.toNat_ofNat]
    omega
  rw [commandWord, BitVec.or_assoc, BitVec.toNat_or, BitVec.toNat_or, hop, himm1, hlast,
    ← Nat.shiftLeft_add_eq_or_of_lt himm0, ← Nat.shiftLeft_add_eq_or_of_lt himms]
  omega

/-- A word with RSV zero is put together from its other fields. -/
theorem commandWord_of_fields {cw : Word} (h : rsvField cw = 0) :
    commandWord (opField cw) (imm1Field cw).toNat (imm0Field cw).toNat = cw := by
  apply BitVec.eq_of_toNat_eq
  have hzero : (0 : BitVec 8).toNat = 0 := rfl
  rw [commandWord_toNat, word_toNat_eq_fields cw, h, hzero]
  omega

/-! ### A decoded word is the word of its command -/

theorem rsvField_of_decode {cw : Word} {i : Instr} (h : decode cw = .command i) : rsvField cw = 0 := by
  by_contra hrsv
  simp [decode_of_rsv_ne_zero hrsv] at h

/-- Format I1 (R93): the word of the command it decodes to, whatever its opcode. -/
theorem encode_of_decodeI1 {cw : Word} {mk : Nat → Instr} {i : Instr} (hrsv : rsvField cw = 0)
    (hmk : ∀ n, encode (mk n) = commandWord (opField cw) 0 n) (h : decodeI1 cw mk = .command i) : encode i = cw := by
  obtain ⟨himm1, rfl⟩ := (decodeI1_eq_command_iff cw mk i).1 h
  have hword := commandWord_of_fields hrsv
  rw [himm1] at hword
  exact (hmk _).trans hword

/-- Format Z (R93): the word of the command it decodes to, whatever its opcode. -/
theorem encode_of_decodeZ {cw : Word} {i j : Instr} (hrsv : rsvField cw = 0)
    (hj : encode j = commandWord (opField cw) 0 0) (h : decodeZ cw j = .command i) : encode i = cw := by
  obtain ⟨⟨himm1, himm0⟩, rfl⟩ := (decodeZ_eq_command_iff cw j i).1 h
  have hword := commandWord_of_fields hrsv
  rw [himm1, himm0] at hword
  exact hj.trans hword

/-- No word is an alias (R96): by the opcode, each of its own format. -/
theorem encode_of_decode {cw : Word} {i : Instr} (h : decode cw = .command i) : encode i = cw := by
  have hrsv := rsvField_of_decode h
  rw [decode, if_neg (not_not_intro hrsv)] at h
  split_ifs at h with hop hop hop hop hop hop hop hop
  · exact encode_of_decodeI1 hrsv (fun n => by rw [hop]; rfl) h
  · obtain rfl := Decoded.command.inj h
    have hword := commandWord_of_fields hrsv
    rw [hop] at hword
    exact hword
  · exact encode_of_decodeZ hrsv (by rw [hop]; rfl) h
  · exact encode_of_decodeI1 hrsv (fun n => by rw [hop]; rfl) h
  · exact encode_of_decodeZ hrsv (by rw [hop]; rfl) h
  · exact encode_of_decodeZ hrsv (by rw [hop]; rfl) h
  · exact encode_of_decodeZ hrsv (by rw [hop]; rfl) h
  · exact encode_of_decodeZ hrsv (by rw [hop]; rfl) h

/-! ### XFORM -/

/-- The word of XFORM is the one its row of R95 gives. -/
theorem decode_eq_xform_iff (cw : Word) : decode cw = .command .xform ↔ cw = 0x11000000 := by
  have hencode : encode .xform = 0x11000000 := by decide
  constructor
  · exact fun h => (encode_of_decode h).symm.trans hencode
  · rintro rfl
    decide

/-- Outside the fault state a command that reads no key runs its own rule, key or no key (R91). -/
theorem exec_of_ready_of_noKeyRead {s : State} {i : Instr} (h : s.Ready) (hkey : readsKey i = false) :
    exec i s = .next (commandBody i s) := by
  rw [exec_eq_runCommand, hkey]
  exact runCommand_of_ready _ h

/-- Settles O19: the word by its encoding, then XFORM by the cases of its frame; the corner values are computed. -/
theorem xformCommand : Obligations.XformCommand := by
  refine ⟨decode_eq_xform_iff, fun s hready => ?_, fun s hfault => exec_of_fault hfault .xform, by decide⟩
  exact exec_of_ready_of_noKeyRead hready rfl

end Sys2Proof.Machine
end

section
/-! PROOFS. 42_key_schedule: the subkeys (R140), the commands SUBKEY and LDKEY (R142, R143), and which commands leave K
as it is (R144). -/

namespace Sys2Proof.Machine

/-! ### K across the commands -/

@[simp] theorem State.runBlock_k (s : State) (b : Block) (dir : BitVec 1) : (s.runBlock b dir).k = s.k := by
  rw [State.runBlock_frame]

@[simp] theorem State.blockCommand_k (s : State) (dir : BitVec 1) : (s.blockCommand dir).k = s.k := by
  rw [State.blockCommand, State.releasePair_k, State.runBlock_k]

@[simp] theorem State.encryptBlocks_k (n : Nat) (s : State) : (State.encryptBlocks n s).k = s.k := by
  rw [State.encryptBlocks_frame]

@[simp] theorem State.decryptBlocks_k (n : Nat) (s : State) : (State.decryptBlocks n s).k = s.k := by
  rw [State.decryptBlocks_frame]

/-- The own rule of every command but LDKEY leaves K as it is, where it raises an error too (R144). -/
theorem commandBody_k {i : Instr} (h : ∀ n, i ≠ .ldkey n) (s : State) : (commandBody i s).k = s.k := by
  cases i with
  | ldkey n => exact absurd rfl (h n)
  | subst t n => simp only [commandBody]; split <;> simp
  | xform => rfl
  | subkey r => simp only [commandBody]; split <;> simp
  | encblk => exact s.blockCommand_k dirEncrypt
  | decblk => exact s.blockCommand_k dirDecrypt
  | encstr => simp [commandBody]
  | decstr => simp only [commandBody]; split <;> simp

/-- Settles O24: by what a command can do: nothing, KeyNotLoaded, or its own rule. -/
theorem onlyLdkeyWritesTheKey : Obligations.OnlyLdkeyWritesTheKey := by
  intro i s t hi hexec
  rcases exec_cases hexec with ⟨_, rfl⟩ | ⟨_, _, _, rfl⟩ | ⟨_, _, rfl⟩
  · rfl
  · exact s.raise_k .keyNotLoaded
  · exact commandBody_k hi s

/-! ### The subkeys -/

theorem subkeyForRound_eq_get (r : Nat) (key : KeyWords) : subkeyForRound r key = key.get (keyIndex r) := rfl

/-- Rounds 0 to 23 take the key words in ascending order (R140). -/
theorem keyIndex_of_lt {r : Nat} (h : r < 24) : keyIndex r = Fin.ofNat 8 (r % 8) := if_pos h

/-- From round 24 on the key words come in descending order (R140). -/
theorem keyIndex_of_ge {r : Nat} (h : 24 ≤ r) : keyIndex r = Fin.ofNat 8 (7 - r % 8) := if_neg (Nat.not_lt.2 h)

/-- Settles O20: the two orders of the key words, before and from round 24. -/
theorem subkeySchedule : Obligations.SubkeySchedule := by
  refine ⟨fun key r hlt => ?_, fun key r hge _ => ?_⟩
  · rw [subkeyForRound_eq_get, keyIndex_of_lt hlt]
  · rw [subkeyForRound_eq_get, keyIndex_of_ge hge]

/-! ### The words of SUBKEY and LDKEY -/

/-- The mask of format I1 (R95) clears IMM0 alone: the three fields above it are those of the row. -/
theorem fields_of_and_upperBytes {cw row : Word} (h : cw &&& 0xFFFFFF00 = row) :
    opField cw = opField row ∧ rsvField cw = rsvField row ∧ imm1Field cw = imm1Field row := by
  subst h
  have hones (field : BitVec 8) : field &&& 255#8 = field := BitVec.and_allOnes
  simp [opField, rsvField, imm1Field, BitVec.extractLsb'_and, hones]

/-- The words in a row of format I1 (R95) are those of its command: one way by the fields the row fixes, the other by
the encoding. -/
theorem i1Row_iff_decode {row : Word} {mk : Nat → Instr} (hrsv : rsvField row = 0) (himm1 : imm1Field row = 0)
    (hdecode : ∀ {cw : Word}, opField cw = opField row → rsvField cw = 0 → decode cw = decodeI1 cw mk)
    (hencode : ∀ n, encode (mk n) &&& 0xFFFFFF00 = row) (cw : Word) :
    cw &&& 0xFFFFFF00 = row ↔ decode cw = .command (mk (imm0Field cw).toNat) := by
  constructor
  · intro h
    obtain ⟨hopCw, hrsvCw, himm1Cw⟩ := fields_of_and_upperBytes h
    rw [hdecode hopCw (hrsvCw.trans hrsv), decodeI1_eq_command_iff]
    exact ⟨himm1Cw.trans himm1, rfl⟩
  · intro h
    have hword := hencode (imm0Field cw).toNat
    rwa [encode_of_decode h] at hword

/-- Opcode 0x12 with RSV zero is SUBKEY, of format I1 (R95). -/
theorem decode_of_subkey_opcode {cw : Word} (hop : opField cw = 0x12) (hrsv : rsvField cw = 0) :
    decode cw = decodeI1 cw .subkey := by
  simp [decode, hop, hrsv]

/-- Opcode 0x01 with RSV zero is LDKEY, of format I1 (R95). -/
theorem decode_of_ldkey_opcode {cw : Word} (hop : opField cw = 0x01) (hrsv : rsvField cw = 0) :
    decode cw = decodeI1 cw .ldkey := by
  simp [decode, hop, hrsv]

/-- The words of SUBKEY are those of its row (R95, R142). -/
theorem subkeyRow_iff_decode (cw : Word) :
    cw &&& 0xFFFFFF00 = 0x12000000 ↔ decode cw = .command (.subkey (imm0Field cw).toNat) :=
  i1Row_iff_decode (by decide) (by decide) decode_of_subkey_opcode Laws.TableRow.subkey cw

/-- The words of LDKEY are those of its row (R95, R143). -/
theorem ldkeyRow_iff_decode (cw : Word) :
    cw &&& 0xFFFFFF00 = 0x01000000 ↔ decode cw = .command (.ldkey (imm0Field cw).toNat) :=
  i1Row_iff_decode (by decide) (by decide) decode_of_ldkey_opcode Laws.TableRow.ldkey cw

/-! ### What SUBKEY does -/

/-- With a key loaded a command that reads it runs its own rule (R91). -/
theorem exec_of_readyWithKey {s : State} {i : Instr} (h : s.ReadyWithKey) (hkey : readsKey i = true) :
    exec i s = .next (commandBody i s) := by
  rw [exec_eq_runCommand, hkey]
  exact runCommand_of_readyWithKey _ h

/-- Without a key a command that reads it raises KeyNotLoaded, before any check of its own (R91, R200). -/
theorem exec_of_noKey {s : State} {i : Instr} (h : s.Ready) (hnoKey : s.keyOk = false) (hkey : readsKey i = true) :
    exec i s = .next (s.raise .keyNotLoaded) := by
  rw [exec_eq_runCommand, hkey]
  exact runCommand_of_noKey _ h hnoKey

theorem roundLegal_iff (r : Nat) : roundLegal r = true ↔ r ≤ 31 := by simp [roundLegal]

theorem commandBody_subkey_of_legal (s : State) {r : Nat} (h : r ≤ 31) :
    commandBody (.subkey r) s = { s with res := subkeyForRound r s.k } :=
  if_pos ((roundLegal_iff r).2 h)

theorem commandBody_subkey_of_illegal (s : State) {r : Nat} (h : r > 31) :
    commandBody (.subkey r) s = s.raise .invalidIndex :=
  if_neg fun hlegal => absurd ((roundLegal_iff r).1 hlegal) (Nat.not_le.2 h)

/-- Settles O22: the word by its row, then SUBKEY by the cases of its frame: a legal round, InvalidIndex, KeyNotLoaded,
the fault state. -/
theorem subkeyCommand : Obligations.SubkeyCommand := by
  refine ⟨subkeyRow_iff_decode, fun s r hready hle => ?_, fun s r hready hgt => ?_,
    fun s r hready hnoKey => exec_of_noKey hready hnoKey rfl, fun s r hfault => exec_of_fault hfault (.subkey r)⟩
  · rw [exec_of_readyWithKey hready rfl, commandBody_subkey_of_legal s hle]
  · rw [exec_of_readyWithKey hready rfl, commandBody_subkey_of_illegal s hgt]
    rfl

/-! ### What LDKEY does -/

theorem keyLengthLegal_iff (n : Nat) : keyLengthLegal n = true ↔ n = 8 := by simp [keyLengthLegal]

theorem commandBody_ldkey_eight (s : State) :
    commandBody (.ldkey 8) s = { s with k := s.kin, status := Status.setKeyOk s.status } := rfl

theorem commandBody_ldkey_of_ne_eight (s : State) {n : Nat} (h : n ≠ 8) :
    commandBody (.ldkey n) s = s.raise .invalidKeyLength :=
  if_neg fun hlegal => h ((keyLengthLegal_iff n).1 hlegal)

/-- Settles O23: the word by its row, then LDKEY by the cases of its frame: eight words, InvalidKeyLength, the fault
state. -/
theorem ldkeyCommand : Obligations.LdkeyCommand := by
  refine ⟨ldkeyRow_iff_decode, fun s hready => ?_, fun s n hready hne => ?_,
    fun s n hfault => exec_of_fault hfault (.ldkey n)⟩
  · rw [exec_of_ready_of_noKeyRead hready rfl, commandBody_ldkey_eight]
  · rw [exec_of_ready_of_noKeyRead hready rfl, commandBody_ldkey_of_ne_eight s hne]
    rfl

end Sys2Proof.Machine
end

section
/-! PROOFS. 43_feistel_network: the round, the split and the pack (R150, R151, R154), the block functions round by
round (R152, R153), the sequencer on the transient registers (R157), and the commands ENCBLK and DECBLK (R155, R156,
R159). -/

namespace Sys2Proof.Machine

/-! ### The split and the pack -/

theorem split_fst_toNat (blk : Block) : (split blk).1.toNat = blk.toNat / 2 ^ 32 := by
  rw [split, highHalf, BitVec.extractLsb'_toNat, Nat.shiftRight_eq_div_pow]
  omega

theorem split_snd_toNat (blk : Block) : (split blk).2.toNat = blk.toNat % 2 ^ 32 :=
  BitVec.extractLsb'_toNat ..

/-- The halves of a pack do not overlap, so its OR is a sum (R154). -/
theorem pack_toNat (a b : Word) : (pack (a, b)).toNat = b.toNat * 2 ^ 32 + a.toNat := by
  have hhigh : (b.setWidth 64 <<< 32).toNat = b.toNat <<< 32 := by
    simp only [BitVec.toNat_shiftLeft, BitVec.toNat_setWidth, Nat.shiftLeft_eq]
    omega
  have hlow : (a.setWidth 64).toNat = a.toNat := BitVec.toNat_setWidth_of_le (by decide)
  rw [pack, BitVec.toNat_or, hhigh, hlow, ← Nat.shiftLeft_add_eq_or_of_lt a.isLt, Nat.shiftLeft_eq]

/-- Settles O25: a round by its definition, the halves and the pack as numbers. -/
theorem roundSplitAndPack : Obligations.RoundSplitAndPack :=
  ⟨fun _ _ _ _ => rfl, fun blk => ⟨split_fst_toNat blk, split_snd_toNat blk⟩, pack_toNat⟩

/-! ### The block functions round by round -/

/-- The round index after `n` rounds (R152, R153): ascending to encrypt, descending to decrypt. -/
def roundIndex (dir : BitVec 1) (n : Nat) : Nat := if dir = 0 then n else 31 - n

/-- The running pair after the first `n` rounds of a block operation. -/
def pairAfter (sbox : SBox) (key : KeyWords) (dir : BitVec 1) (blk : Block) (n : Nat) : Word × Word :=
  runRounds sbox key ((List.range n).map (roundIndex dir)) (split blk)

theorem pairAfter_zero (sbox : SBox) (key : KeyWords) (dir : BitVec 1) (blk : Block) :
    pairAfter sbox key dir blk 0 = split blk := rfl

theorem pairAfter_succ (sbox : SBox) (key : KeyWords) (dir : BitVec 1) (blk : Block) (n : Nat) :
    pairAfter sbox key dir blk (n + 1) =
      feistelRound sbox (pairAfter sbox key dir blk n) (subkeyForRound (roundIndex dir n) key) := by
  simp [pairAfter, runRounds, List.range_succ]

theorem encryptBlock_eq_pack_pairAfter (sbox : SBox) (key : KeyWords) (blk : Block) :
    encryptBlock sbox key blk = pack (pairAfter sbox key dirEncrypt blk 32) := by
  have hrounds : List.range 32 = (List.range 32).map (roundIndex dirEncrypt) := by decide
  rw [encryptBlock, hrounds, pairAfter]

theorem decryptBlock_eq_pack_pairAfter (sbox : SBox) (key : KeyWords) (blk : Block) :
    decryptBlock sbox key blk = pack (pairAfter sbox key dirDecrypt blk 32) := by
  have hrounds : (List.range 32).reverse = (List.range 32).map (roundIndex dirDecrypt) := by decide
  rw [decryptBlock, hrounds, pairAfter]

/-- Settles O26: the sequence is the running pair after each number of rounds, in the direction of the function. -/
theorem blockFunctionsRunTheRounds : Obligations.BlockFunctionsRunTheRounds := by
  intro sbox key blk
  exact ⟨⟨pairAfter sbox key dirEncrypt blk, pairAfter_zero sbox key dirEncrypt blk,
      fun r _ => pairAfter_succ sbox key dirEncrypt blk r,
      encryptBlock_eq_pack_pairAfter sbox key blk⟩,
    ⟨pairAfter sbox key dirDecrypt blk, pairAfter_zero sbox key dirDecrypt blk,
      fun r _ => pairAfter_succ sbox key dirDecrypt blk r,
      decryptBlock_eq_pack_pairAfter sbox key blk⟩⟩

/-! ### The sequencer -/

/-- The state whose sequencer has done `n` rounds on a block: the running pair in A and B, the count in CNT (10_state
R30, R31). -/
def State.afterRounds (s : State) (blk : Block) (dir : BitVec 1) (n : Nat) : State :=
  { s with
    seq :=
      { s.seq with
        a := (pairAfter s.sbox s.k dir blk n).1
        b := (pairAfter s.sbox s.k dir blk n).2
        cnt := BitVec.ofNat 6 n
        dir := dir } }

theorem State.seqStart_eq_afterRounds (s : State) (blk : Block) (dir : BitVec 1) :
    s.seqStart blk dir = s.afterRounds blk dir 0 := rfl

theorem Seq.round_eq_roundIndex (q : Seq) : q.round = roundIndex q.dir q.cnt.toNat := rfl

/-- Below 32 a step of the sequencer is the next round (R157). -/
theorem State.seqStep_afterRounds (s : State) (blk : Block) (dir : BitVec 1) {n : Nat} (h : n < 32) :
    (s.afterRounds blk dir n).seqStep = s.afterRounds blk dir (n + 1) := by
  have hcnt : (BitVec.ofNat 6 n).toNat = n := Nat.mod_eq_of_lt (by omega)
  have henabled : (s.afterRounds blk dir n).seq.cnt < 32 := by
    rw [BitVec.lt_def]
    exact hcnt.trans_lt h
  have hround : (s.afterRounds blk dir n).seq.round = roundIndex dir n :=
    (Seq.round_eq_roundIndex _).trans (congrArg (roundIndex dir) hcnt)
  have hnext : BitVec.ofNat 6 (n + 1) = BitVec.ofNat 6 n + 1 := BitVec.ofNat_add n 1
  rw [State.seqStep, if_pos henabled, hround]
  simp only [State.afterRounds, pairAfter_succ, hnext]

/-- The sequencer keeps in step with the rounds of the block function (R157). -/
theorem State.seqSteps_seqStart (s : State) (blk : Block) (dir : BitVec 1) {n : Nat} (h : n ≤ 32) :
    State.seqSteps n (s.seqStart blk dir) = s.afterRounds blk dir n := by
  induction n with
  | zero => exact s.seqStart_eq_afterRounds blk dir
  | succ n ih => rw [State.seqSteps_succ, ih (Nat.le_of_succ_le h), State.seqStep_afterRounds s blk dir h]

/-- A whole block operation in the transient registers leaves the pair after 32 rounds. -/
theorem State.runBlock_eq_afterRounds (s : State) (blk : Block) (dir : BitVec 1) :
    s.runBlock blk dir = s.afterRounds blk dir 32 := s.seqSteps_seqStart blk dir (Nat.le_refl 32)

theorem State.seqResult_runBlock_encrypt (s : State) (blk : Block) :
    (s.runBlock blk dirEncrypt).seqResult = encryptBlock s.sbox s.k blk := by
  rw [State.runBlock_eq_afterRounds, encryptBlock_eq_pack_pairAfter]
  rfl

theorem State.seqResult_runBlock_decrypt (s : State) (blk : Block) :
    (s.runBlock blk dirDecrypt).seqResult = decryptBlock s.sbox s.k blk := by
  rw [State.runBlock_eq_afterRounds, decryptBlock_eq_pack_pairAfter]
  rfl

/-! ### ENCBLK and DECBLK -/

/-- The result of a block operation in BLK, and A, B, CNT and DIR unspecified anew, as both block commands end (R155,
R156; 10_state R33). -/
def State.withBlockResult (s : State) (result : Block) : State := { s with blk := result }.releasePair

/-- The sequencer leaves no trace but its result: the registers it wrote are released, BI it did not write. -/
theorem State.blockCommand_eq_withBlockResult (s : State) (dir : BitVec 1) :
    s.blockCommand dir = s.withBlockResult (s.runBlock s.blk dir).seqResult := by
  rw [State.blockCommand, State.runBlock_eq_afterRounds]
  rfl

theorem commandBody_encblk (s : State) :
    commandBody .encblk s = s.withBlockResult (encryptBlock s.sbox s.k s.blk) := by
  rw [← State.seqResult_runBlock_encrypt]
  exact s.blockCommand_eq_withBlockResult dirEncrypt

theorem commandBody_decblk (s : State) :
    commandBody .decblk s = s.withBlockResult (decryptBlock s.sbox s.k s.blk) := by
  rw [← State.seqResult_runBlock_decrypt]
  exact s.blockCommand_eq_withBlockResult dirDecrypt

theorem exec_encblk_of_readyWithKey {s : State} (h : s.ReadyWithKey) :
    exec .encblk s = .next (s.withBlockResult (encryptBlock s.sbox s.k s.blk)) := by
  rw [exec_of_readyWithKey h rfl, commandBody_encblk]

theorem exec_decblk_of_readyWithKey {s : State} (h : s.ReadyWithKey) :
    exec .decblk s = .next (s.withBlockResult (decryptBlock s.sbox s.k s.blk)) := by
  rw [exec_of_readyWithKey h rfl, commandBody_decblk]

/-- A command's own word is the only one that decodes to it (R96). -/
theorem decode_eq_command_iff_of_encode {i : Instr} (h : decode (encode i) = .command i) (cw : Word) :
    decode cw = .command i ↔ cw = encode i := by
  constructor
  · exact fun hdecode => (encode_of_decode hdecode).symm
  · rintro rfl
    exact h

/-- Settles O28: the word by its encoding, then ENCBLK by the cases of its frame: its own rule, KeyNotLoaded, the fault
state. -/
theorem encblkCommand : Obligations.EncblkCommand :=
  ⟨decode_eq_command_iff_of_encode (i := .encblk) (by decide), fun _ hready => exec_encblk_of_readyWithKey hready,
    fun _ hready hnoKey => exec_of_noKey hready hnoKey rfl, fun _ hfault => exec_of_fault hfault .encblk⟩

/-- Settles O29: the word by its encoding, then DECBLK by the cases of its frame: its own rule, KeyNotLoaded, the fault
state. -/
theorem decblkCommand : Obligations.DecblkCommand :=
  ⟨decode_eq_command_iff_of_encode (i := .decblk) (by decide), fun _ hready => exec_decblk_of_readyWithKey hready,
    fun _ hready hnoKey => exec_of_noKey hready hnoKey rfl, fun _ hfault => exec_of_fault hfault .decblk⟩

/-- Settles O31: with a key loaded the result is a block function of BLK, K and SBOX, on which the two states agree. -/
theorem blockCommandsAreDeterministic : Obligations.BlockCommandsAreDeterministic := by
  intro s s' hready hready' hblk hk hsbox
  have hencrypt : encryptBlock s.sbox s.k s.blk = encryptBlock s'.sbox s'.k s'.blk := by rw [hblk, hk, hsbox]
  have hdecrypt : decryptBlock s.sbox s.k s.blk = decryptBlock s'.sbox s'.k s'.blk := by rw [hblk, hk, hsbox]
  exact ⟨⟨_, _, exec_encblk_of_readyWithKey hready, exec_encblk_of_readyWithKey hready', hencrypt⟩,
    ⟨_, _, exec_decblk_of_readyWithKey hready, exec_decblk_of_readyWithKey hready', hdecrypt⟩⟩

end Sys2Proof.Machine
end

section
/-! PROOFS. 44_ecb_processor: padding (R170), stripping (R174), the lengths of the streams (R177), the block loop and
the zero scan on the buffers, and the commands ENCSTR and DECSTR (R175, R176). -/

namespace Sys2Proof.Machine

/-! ### Padding -/

/-- Settles O34: the padded length is eight times one more than the whole blocks, so no multiple of 8 above the length
is smaller. -/
theorem paddingLength : Obligations.PaddingLength := by
  refine ⟨fun n => ?_, by decide⟩
  have hpad : padLength n = 8 - n % 8 := rfl
  exact ⟨hpad, by omega, by omega, add_padLength n, by omega, fun m hlt hmul => by omega⟩

/-! ### Stripping -/

theorem stripZeros_concat (d : List Byte) (b : Byte) :
    stripZeros (d ++ [b]) = if b = 0 then stripZeros d else d ++ [b] := by
  induction d with
  | nil => rfl
  | cons x xs ih =>
    rw [List.cons_append, stripZeros, ih]
    by_cases hb : b = 0
    · simp only [if_pos hb, stripZeros]
    · simp only [if_neg hb]
      cases xs <;> rfl

/-- Stripping is the library's removal from the end of a list while a byte is zero (R174). -/
theorem stripZeros_eq_rdropWhile (d : List Byte) : stripZeros d = d.rdropWhile (· = 0) := by
  induction d using List.reverseRecOn with
  | nil => rfl
  | append_singleton d b ih => simp only [stripZeros_concat, List.rdropWhile_concat, ih, decide_eq_true_eq]

/-- What stripping removes is zero bytes, at the end (R174). -/
theorem exists_eq_stripZeros_append_zeros (d : List Byte) : ∃ z, d = stripZeros d ++ zeros z := by
  have hremoved : d.rtakeWhile (· = 0) = zeros (d.rtakeWhile (· = 0)).length :=
    List.eq_replicate_of_mem fun x hx => by simpa using List.mem_rtakeWhile_imp hx
  refine ⟨(d.rtakeWhile (· = 0)).length, ?_⟩
  rw [← hremoved, stripZeros_eq_rdropWhile, List.rdropWhile_append_rtakeWhile]

/-- What stripping leaves has a non-zero last byte, if it has any (R174). -/
theorem stripZeros_eq_nil_or_concat (d : List Byte) :
    stripZeros d = [] ∨ ∃ init last, stripZeros d = init ++ [last] ∧ last ≠ 0 := by
  rw [stripZeros_eq_rdropWhile, or_iff_not_imp_left]
  intro hne
  exact ⟨_, _, (List.dropLast_append_getLast hne).symm, by simpa using List.rdropWhile_last_not (· = 0) d hne⟩

theorem stripZeros_of_forall_zero {d : List Byte} (h : ∀ x ∈ d, x = 0) : stripZeros d = [] := by
  rw [stripZeros_eq_rdropWhile, List.rdropWhile_eq_nil_iff]
  exact fun x hx => decide_eq_true (h x hx)

theorem stripZeros_prefix (d : List Byte) : stripZeros d <+: d := by
  rw [stripZeros_eq_rdropWhile]
  exact List.rdropWhile_prefix _ d

/-- Settles O35: the removed end is zero bytes, the rest ends in a non-zero one, and a stream is stripped once, as a
whole. -/
theorem stripRemovesEveryTrailingZero : Obligations.StripRemovesEveryTrailingZero :=
  fun d => ⟨exists_eq_stripZeros_append_zeros d, stripZeros_eq_nil_or_concat d, stripZeros_of_forall_zero,
    fun sbox key => decryptStream_eq_stripZeros_chunks sbox key⟩

/-! ### The lengths of the streams -/

/-- A length that is no multiple of 8 is rejected before any block is read (R172, R176). -/
theorem exec_decstr_of_length_illegal {s : State} (h : s.ReadyWithKey) (hlen : s.ilen % 8 ≠ 0) :
    exec .decstr s = .next (s.raise .invalidCiphertextLength) := by
  rw [exec_of_readyWithKey h rfl]
  exact congrArg Host.Outcome.next (if_neg hlen)

/-- Settles O39: encryption adds the padding, decryption loses what stripping removes, and DECSTR rejects the other
lengths. -/
theorem streamLengths : Obligations.StreamLengths := by
  refine ⟨fun sbox key d => ?_, fun sbox key d hlen => ?_, fun s hready hlen => ?_⟩
  · have hpad : padLength d.length = 8 - d.length % 8 := rfl
    rw [length_encryptStream]
    exact ⟨rfl, by omega, by omega, by omega⟩
  · obtain ⟨raw, hstrip, hraw, hchunks⟩ := decryptStream_eq_stripZeros_chunks sbox key hlen
    obtain ⟨z, hz⟩ := exists_eq_stripZeros_append_zeros raw
    rw [hstrip]
    exact ⟨z, hz ▸ hraw, hz ▸ hchunks⟩
  · exact ⟨_, exec_decstr_of_length_illegal hready hlen, s.err_raise .invalidCiphertextLength⟩

/-! ### Reading the input -/

/-- A chunk read whole is the padded chunk too: `PadByte` reads the input below ILEN (R175). -/
theorem State.paddedRead_eq (s : State) (a : Nat) :
    s.paddedRead a = fromLe64 ((List.range' a 8).map s.padByte) := by
  have haddr : (List.range' a 8).map s.padByte = (List.range 8).map fun i => s.padByte (a + i) := by
    rw [List.range'_eq_map_range, List.map_map]
    rfl
  rw [State.paddedRead, haddr]
  split
  · rename_i hwhole
    rw [State.memRead]
    refine congrArg fromLe64 (List.map_congr_left fun i hi => (if_pos ?_).symm)
    have hlt := List.mem_range.1 hi
    omega
  · rfl

theorem State.memRead_eq (s : State) (a : Nat) :
    s.memRead a = fromLe64 ((List.range' a 8).map s.inputByte) := by
  rw [State.memRead, List.range'_eq_map_range, List.map_map]
  rfl

/-- The padded input of ENCSTR is the input and `pad` zero bytes (R171, R175). -/
theorem State.map_padByte_eq (s : State) (n : Nat) :
    (List.range' 0 (s.ilen + n)).map s.padByte = s.inputBytes ++ zeros n := by
  have hdata : (List.range' 0 s.ilen).map s.padByte = s.inputBytes := by
    rw [State.inputBytes, List.range_eq_range']
    exact List.map_congr_left fun a ha => if_pos (by simpa using ha)
  have hpad : (List.range' s.ilen n).map s.padByte = zeros n := by
    refine List.eq_replicate_iff.2 ⟨by simp, fun b hb => ?_⟩
    obtain ⟨a, ha, rfl⟩ := List.mem_map.1 hb
    exact if_neg (by simpa using (List.mem_range'_1.1 ha).1)
  rw [← List.range'_append_1, List.map_append, Nat.zero_add, hdata, hpad]

/-! ### The block loop -/

theorem Memory.storeBytes_append (m : Memory) (a : Nat) (vs ws : List Byte) :
    m.storeBytes a (vs ++ ws) = (m.storeBytes a vs).storeBytes (a + vs.length) ws := by
  induction vs generalizing m a with
  | nil => rfl
  | cons v vs ih =>
    rw [List.cons_append, Memory.storeBytes, ih, Memory.storeBytes, List.length_cons, Nat.add_assoc, Nat.add_comm 1]

/-- One block stored, then the blocks after it, are one more block stored. -/
theorem Memory.storeBytes_mapBlocks_succ (m : Memory) (f : Block → Block) (g : Nat → Byte) (i n : Nat) :
    (m.storeBytes (8 * i) (le64 (f (fromLe64 ((List.range' (8 * i) 8).map g))))).storeBytes (8 * (i + 1))
        (mapBlocks f n ((List.range' (8 * (i + 1)) (8 * n)).map g)) =
      m.storeBytes (8 * i) (mapBlocks f (n + 1) ((List.range' (8 * i) (8 * (n + 1))).map g)) := by
  have hrange : List.range' (8 * i) (8 * (n + 1)) = List.range' (8 * i) 8 ++ List.range' (8 * (i + 1)) (8 * n) := by
    rw [Nat.mul_succ, Nat.add_comm (8 * n), Nat.mul_succ, List.range'_append_1]
  rw [hrange, List.map_append, mapBlocks, List.take_left' (by simp), List.drop_left' (by simp),
    Memory.storeBytes_append, length_le64, Nat.mul_succ]

/-- The block loop of ENCSTR writes the encrypted blocks of the padded input, from block BI on (R175). -/
theorem State.obuf_encryptBlocks (n : Nat) (s : State) :
    (State.encryptBlocks n s).obuf = s.obuf.storeBytes (8 * s.seq.bi)
      (mapBlocks (encryptBlock s.sbox s.k) n ((List.range' (8 * s.seq.bi) (8 * n)).map s.padByte)) := by
  induction n generalizing s with
  | zero => rfl
  | succ n ih =>
    rw [State.encryptBlocks, ih, State.streamBlock_frame, State.seqResult_runBlock_encrypt, State.paddedRead_eq]
    exact Memory.storeBytes_mapBlocks_succ ..

/-- The block loop of DECSTR writes the decrypted blocks of the input, from block BI on (R176). -/
theorem State.obuf_decryptBlocks (n : Nat) (s : State) :
    (State.decryptBlocks n s).obuf = s.obuf.storeBytes (8 * s.seq.bi)
      (mapBlocks (decryptBlock s.sbox s.k) n ((List.range' (8 * s.seq.bi) (8 * n)).map s.inputByte)) := by
  induction n generalizing s with
  | zero => rfl
  | succ n ih =>
    rw [State.decryptBlocks, ih, State.streamBlock_frame, State.seqResult_runBlock_decrypt, State.memRead_eq]
    exact Memory.storeBytes_mapBlocks_succ ..

/-! ### The output buffer -/

/-- Where OBUF lists the bytes of `out`, reading it gives them: no free value is read. -/
theorem State.map_outputByte_eq_take {s : State} {out : List Byte} {n : Nat}
    (hfind : ∀ a < n, s.obuf.find a = out[a]?) (hn : n ≤ out.length) :
    (List.range n).map s.outputByte = out.take n := by
  refine List.ext_getElem (by simpa using hn) fun a ha hout => ?_
  have hlt : a < n := by simpa using ha
  simp [State.outputByte, hfind a hlt, List.getElem?_eq_getElem (hlt.trans_le hn)]

theorem Memory.find_storeBytes_zero (m : Memory) {out : List Byte} {a : Nat} (h : a < out.length) :
    (m.storeBytes 0 out).find a = out[a]? := by
  simp [Memory.find_storeBytes, h]

/-- The zero scan of DECSTR finds the length that stripping leaves (R174, R176). -/
theorem State.scanZeros_eq_length_stripZeros (s : State) (n : Nat) :
    s.scanZeros n = (stripZeros ((List.range n).map s.outputByte)).length := by
  induction n with
  | zero => rfl
  | succ n ih =>
    rw [State.scanZeros, List.range_succ, List.map_append, List.map_singleton, stripZeros_concat]
    split
    · exact ih
    · simp

/-- How both stream commands end (R175, R176): `out` written to OBUF from address 0 on, its first `n` bytes kept as the
result, the transient registers unspecified anew. -/
def State.withStreamResult (s : State) (out : List Byte) (n : Nat) : State :=
  { s with obuf := s.obuf.storeBytes 0 out }.finishStream n

@[simp] theorem State.withStreamResult_olen (s : State) (out : List Byte) (n : Nat) :
    (s.withStreamResult out n).olen = n := rfl

@[simp] theorem State.inputByte_withStreamResult (s : State) (out : List Byte) (n a : Nat) :
    (s.withStreamResult out n).inputByte a = s.inputByte a := rfl

theorem State.find_obuf_withStreamResult (s : State) (out : List Byte) (n a : Nat) :
    (s.withStreamResult out n).obuf.find a = if a < n then (s.obuf.storeBytes 0 out).find a else none :=
  Memory.find_below ..

theorem State.find_obuf_withStreamResult_of_ge (s : State) (out : List Byte) {n a : Nat} (h : n ≤ a) :
    (s.withStreamResult out n).obuf.find a = none := by
  rw [State.find_obuf_withStreamResult, if_neg (Nat.not_lt.2 h)]

theorem State.outputBytes_withStreamResult (s : State) {out : List Byte} {n : Nat} (h : n ≤ out.length) :
    (s.withStreamResult out n).outputBytes = out.take n := by
  refine State.map_outputByte_eq_take (fun a ha => ?_) h
  rw [State.withStreamResult_olen] at ha
  rw [State.find_obuf_withStreamResult, if_pos ha, Memory.find_storeBytes_zero _ (ha.trans_le h)]

/-- What a stream command writes (R175, R176): OBUF, OLEN and the transient registers. -/
theorem State.withStreamResult_frame (s : State) (out : List Byte) (n : Nat) :
    s.withStreamResult out n =
      { s with
        obuf := (s.withStreamResult out n).obuf
        olen := (s.withStreamResult out n).olen
        seq := Seq.unspecified s.free.seq
        free := { s.free with seq := s.free.seq + 1, obuf := s.free.obuf + 1 } } := rfl

/-! ### ENCSTR -/

@[simp] theorem State.length_inputBytes (s : State) : s.inputBytes.length = s.ilen := by simp [State.inputBytes]

theorem commandBody_encstr (s : State) :
    commandBody .encstr s =
      s.withStreamResult (encryptStream s.sbox s.k s.inputBytes) (s.ilen + padLength s.ilen) := by
  have hblocks : (s.ilen + padLength s.ilen) / 8 = s.ilen / 8 + 1 := by
    rw [add_padLength, Nat.mul_div_cancel_left _ (by decide)]
  rw [encryptStream_eq_mapBlocks, State.length_inputBytes, ← State.map_padByte_eq, ← hblocks]
  simp only [commandBody]
  rw [State.encryptBlocks_frame, State.obuf_encryptBlocks, hblocks, add_padLength]
  rfl

theorem exec_encstr_of_readyWithKey {s : State} (h : s.ReadyWithKey) :
    exec .encstr s =
      .next (s.withStreamResult (encryptStream s.sbox s.k s.inputBytes) (s.ilen + padLength s.ilen)) := by
  rw [exec_of_readyWithKey h rfl, commandBody_encstr]

theorem State.outputBytes_withStreamResult_encryptStream (s : State) :
    (s.withStreamResult (encryptStream s.sbox s.k s.inputBytes) (s.ilen + padLength s.ilen)).outputBytes =
      encryptStream s.sbox s.k s.inputBytes := by
  have hlen : (encryptStream s.sbox s.k s.inputBytes).length = s.ilen + padLength s.ilen := by simp
  rw [State.outputBytes_withStreamResult s hlen.ge, ← hlen, List.take_length]

/-- Settles O37: the word by its encoding, then ENCSTR by the cases of its frame: the block loop writes the encrypted
stream, KeyNotLoaded, the fault state. -/
theorem encstrCommand : Obligations.EncstrCommand :=
  ⟨decode_eq_command_iff_of_encode (i := .encstr) (by decide),
    fun s hready => ⟨_, exec_encstr_of_readyWithKey hready, rfl, s.outputBytes_withStreamResult_encryptStream,
      fun _ => s.find_obuf_withStreamResult_of_ge _, s.inputByte_withStreamResult _ _, s.withStreamResult_frame _ _⟩,
    fun _ hready hnoKey => exec_of_noKey hready hnoKey rfl, fun _ hfault => exec_of_fault hfault .encstr⟩

/-! ### DECSTR -/

/-- The decrypted blocks of the input buffer, before stripping (R173). -/
def State.decryptedBytes (s : State) : List Byte :=
  mapBlocks (decryptBlock s.sbox s.k) (s.ilen / 8) s.inputBytes

theorem State.length_decryptedBytes {s : State} (h : s.ilen % 8 = 0) : s.decryptedBytes.length = s.ilen :=
  (length_mapBlocks _ _ _).trans (Nat.mul_div_cancel' (Nat.dvd_of_mod_eq_zero h))

theorem State.stripZeros_decryptedBytes (s : State) :
    stripZeros s.decryptedBytes = decryptStream s.sbox s.k s.inputBytes := by
  rw [decryptStream, State.length_inputBytes, State.decryptedBytes]

/-- The block loop of DECSTR leaves the decrypted blocks in OBUF (R176). -/
theorem State.obuf_decryptBlocks_startStream {s : State} (h : s.ilen % 8 = 0) :
    (State.decryptBlocks (s.ilen / 8) s.startStream).obuf = s.obuf.storeBytes 0 s.decryptedBytes := by
  have hblocks : 8 * (s.ilen / 8) = s.ilen := Nat.mul_div_cancel' (Nat.dvd_of_mod_eq_zero h)
  rw [State.obuf_decryptBlocks, hblocks, State.decryptedBytes, State.inputBytes, List.range_eq_range']
  rfl

/-- The zero scan after the block loop finds the length of the decrypted stream (R176). -/
theorem State.scanZeros_decryptBlocks_startStream {s : State} (h : s.ilen % 8 = 0) :
    (State.decryptBlocks (s.ilen / 8) s.startStream).scanZeros s.ilen =
      (decryptStream s.sbox s.k s.inputBytes).length := by
  have hlen := State.length_decryptedBytes h
  have hbytes : (List.range s.ilen).map (State.decryptBlocks (s.ilen / 8) s.startStream).outputByte =
      s.decryptedBytes.take s.ilen := by
    refine State.map_outputByte_eq_take (fun a ha => ?_) hlen.ge
    rw [State.obuf_decryptBlocks_startStream h, Memory.find_storeBytes_zero _ (ha.trans_eq hlen.symm)]
  rw [State.scanZeros_eq_length_stripZeros, hbytes, List.take_of_length_le hlen.le, State.stripZeros_decryptedBytes]

theorem commandBody_decstr {s : State} (h : s.ilen % 8 = 0) :
    commandBody .decstr s =
      s.withStreamResult s.decryptedBytes (decryptStream s.sbox s.k s.inputBytes).length := by
  simp only [commandBody]
  rw [if_pos h, State.scanZeros_decryptBlocks_startStream h, State.decryptBlocks_frame,
    State.obuf_decryptBlocks_startStream h]
  rfl

theorem exec_decstr_of_readyWithKey {s : State} (hready : s.ReadyWithKey) (hlen : s.ilen % 8 = 0) :
    exec .decstr s =
      .next (s.withStreamResult s.decryptedBytes (decryptStream s.sbox s.k s.inputBytes).length) := by
  rw [exec_of_readyWithKey hready rfl, commandBody_decstr hlen]

/-- Stripping only shortens (R174, R176). -/
theorem State.length_decryptStream_le (s : State) :
    (decryptStream s.sbox s.k s.inputBytes).length ≤ s.decryptedBytes.length := by
  rw [← State.stripZeros_decryptedBytes]
  exact (stripZeros_prefix _).length_le

theorem State.outputBytes_withStreamResult_decryptStream (s : State) :
    (s.withStreamResult s.decryptedBytes (decryptStream s.sbox s.k s.inputBytes).length).outputBytes =
      decryptStream s.sbox s.k s.inputBytes := by
  rw [State.outputBytes_withStreamResult s s.length_decryptStream_le, ← State.stripZeros_decryptedBytes]
  exact (List.prefix_iff_eq_take.1 (stripZeros_prefix _)).symm

/-- Settles O38: the word by its encoding, then DECSTR by the cases of its frame: the block loop and the zero scan leave
the decrypted stream, InvalidCiphertextLength, KeyNotLoaded, the fault state. -/
theorem decstrCommand : Obligations.DecstrCommand :=
  ⟨decode_eq_command_iff_of_encode (i := .decstr) (by decide),
    fun s hready hlen => ⟨_, exec_decstr_of_readyWithKey hready hlen,
      s.outputBytes_withStreamResult_decryptStream, rfl,
      s.length_decryptStream_le.trans_eq (State.length_decryptedBytes hlen),
      fun _ => s.find_obuf_withStreamResult_of_ge _, s.inputByte_withStreamResult _ _, s.withStreamResult_frame _ _⟩,
    fun _ hready hlen => exec_decstr_of_length_illegal hready hlen,
    fun _ hready hnoKey => exec_of_noKey hready hnoKey rfl, fun _ hfault => exec_of_fault hfault .decstr⟩

end Sys2Proof.Machine
end

section
/-! PROOFS. 60_exceptions: the one error a command raises and its cause (R196 to R202), the fault state (R194), and
MalformedTable (R195). -/

namespace Sys2Proof.Machine

/-! ### The error of a command -/

/-- The error a command raises outside the fault state, if any: KeyNotLoaded before its own check (R202, items 3 and
4). -/
def commandError (i : Instr) (s : State) : Option ErrKind :=
  if readsKey i = true ∧ s.keyOk = false then some .keyNotLoaded else ownError i s

/-- A command whose own check fails raises that error and does nothing else (R193). -/
theorem commandBody_of_ownError_eq_some {i : Instr} {s : State} {e : ErrKind} (h : ownError i s = some e) :
    commandBody i s = s.raise e := by
  cases i with
  | ldkey n =>
    obtain ⟨hne, rfl⟩ : n ≠ 8 ∧ ErrKind.invalidKeyLength = e := by simpa [ownError] using h
    exact commandBody_ldkey_of_ne_eight s hne
  | subst t n =>
    obtain ⟨hrange, rfl⟩ : (t > 7 ∨ n > 15) ∧ ErrKind.invalidIndex = e := by simpa [ownError] using h
    exact commandBody_subst_of_illegal s hrange
  | subkey r =>
    obtain ⟨hgt, rfl⟩ : r > 31 ∧ ErrKind.invalidIndex = e := by simpa [ownError] using h
    exact commandBody_subkey_of_illegal s hgt
  | decstr =>
    obtain ⟨hlen, rfl⟩ : s.ilen % 8 ≠ 0 ∧ ErrKind.invalidCiphertextLength = e := by simpa [ownError] using h
    exact if_neg hlen
  | xform | encblk | decblk | encstr => exact absurd h (Option.some_ne_none e).symm

/-- A command whose own check passes leaves ERR as it is. -/
theorem err_commandBody_of_ownError_eq_none {i : Instr} {s : State} (h : ownError i s = none) :
    (commandBody i s).err = s.err := by
  cases i with
  | ldkey n =>
    obtain rfl : n = 8 := by simpa [ownError] using h
    exact Status.err_setKeyOk s.status
  | subst t n =>
    obtain ⟨ht, hn⟩ : t ≤ 7 ∧ n ≤ 15 := by simpa [ownError] using h
    simp only [commandBody]
    rw [if_pos ((substOperandsLegal_iff t n).2 ⟨ht, hn⟩)]
    rfl
  | subkey r =>
    have hle : r ≤ 31 := by simpa [ownError] using h
    rw [commandBody_subkey_of_legal s hle]
    rfl
  | decstr =>
    have hlen : s.ilen % 8 = 0 := by simpa [ownError] using h
    rw [commandBody_decstr hlen]
    rfl
  | xform => rfl
  | encblk => rw [commandBody_encblk]; rfl
  | decblk => rw [commandBody_decblk]; rfl
  | encstr => rw [commandBody_encstr]; rfl

/-- Outside the fault state a command raises its error, changing nothing else, or has none and leaves ERR 0 (R193,
R202). -/
theorem exec_error_cases {i : Instr} {s t : State} (hready : s.Ready) (h : exec i s = .next t) :
    (∃ e, commandError i s = some e ∧ t = s.raise e) ∨ (commandError i s = none ∧ t.err = 0#3) := by
  rcases exec_cases h with ⟨hfault, _⟩ | ⟨_, hreads, hnoKey, rfl⟩ | ⟨_, hkey, rfl⟩
  · exact absurd hready hfault
  · exact .inl ⟨_, if_pos ⟨hreads, hnoKey⟩, rfl⟩
  · have hown : commandError i s = ownError i s := if_neg (by rcases hkey with hkey | hkey <;> simp [hkey])
    rw [hown]
    cases he : ownError i s with
    | some e => exact .inl ⟨e, rfl, commandBody_of_ownError_eq_some he⟩
    | none => exact .inr ⟨rfl, (err_commandBody_of_ownError_eq_none he).trans hready⟩

theorem ErrKind.code_injective : Function.Injective ErrKind.code := by
  intro e f
  cases e <;> cases f <;> decide

/-- ERR names the error that a command raised. -/
theorem err_eq_code_iff {i : Instr} {s t : State} (hready : s.Ready) (h : exec i s = .next t) (e : ErrKind) :
    t.err = e.code ↔ commandError i s = some e := by
  rcases exec_error_cases hready h with ⟨f, hf, rfl⟩ | ⟨hnone, hzero⟩
  · rw [hf, State.err_raise, Option.some_inj, ErrKind.code_injective.eq_iff]
  · rw [hnone, hzero]
    exact iff_of_false e.code_ne_zero.symm (Option.some_ne_none e).symm

/-! ### The cause of each error -/

/-- The causes of the errors of commands, one line each (the table of R190). -/
theorem commandError_eq_some_iff (i : Instr) (s : State) (e : ErrKind) :
    commandError i s = some e ↔
      (e = .invalidKeyLength ∧ ∃ n, i = .ldkey n ∧ n ≠ 8) ∨
      (e = .invalidCiphertextLength ∧ i = .decstr ∧ s.keyOk = true ∧ s.ilen % 8 ≠ 0) ∨
      (e = .invalidIndex ∧
        ((∃ a b, i = .subst a b ∧ (a > 7 ∨ b > 15)) ∨ (∃ r, i = .subkey r ∧ s.keyOk = true ∧ r > 31))) ∨
      (e = .keyNotLoaded ∧ s.keyOk = false ∧
        ((∃ r, i = .subkey r) ∨ i = .encblk ∨ i = .decblk ∨ i = .encstr ∨ i = .decstr)) := by
  cases i with
  | ldkey n => simp [commandError, readsKey, ownError, and_comm, eq_comm (a := e)]
  | subst t n =>
    by_cases hrange : t > 7 ∨ n > 15 <;> simp [commandError, readsKey, ownError, hrange, eq_comm (a := e)]
  | xform => simp [commandError, readsKey, ownError]
  | subkey r =>
    cases hkey : s.keyOk <;> simp [commandError, readsKey, ownError, hkey, and_comm, eq_comm (a := e)]
  | decstr =>
    cases hkey : s.keyOk <;> simp [commandError, readsKey, ownError, hkey, and_comm, eq_comm (a := e)]
  | encblk | decblk | encstr => simp [commandError, readsKey, ownError, and_comm, eq_comm (a := e)]

/-- No command raises MalformedTable (R195). -/
theorem commandError_ne_malformedTable (i : Instr) (s : State) : commandError i s ≠ some .malformedTable := by
  simp [commandError_eq_some_iff]

/-- No command that decodes raises IllegalCommand (R199). -/
theorem commandError_ne_illegalCommand (i : Instr) (s : State) : commandError i s ≠ some .illegalCommand := by
  simp [commandError_eq_some_iff]

/-- Settles O11: ERR names the error the command raised, whose cause the table of R190 gives. -/
theorem eachErrorHasItsCause : Obligations.EachErrorHasItsCause := by
  intro i s t hready hexec
  have herr (e : ErrKind) : t.err = e.code ↔ commandError i s = some e := err_eq_code_iff hready hexec e
  refine ⟨(herr .invalidKeyLength).trans (by simp [commandError_eq_some_iff]),
    (herr .invalidCiphertextLength).trans (by simp [commandError_eq_some_iff]),
    (herr .invalidIndex).trans (by simp [commandError_eq_some_iff]),
    (herr .keyNotLoaded).trans (by simp [commandError_eq_some_iff]),
    mt (herr .malformedTable).1 (commandError_ne_malformedTable i s),
    mt (herr .illegalCommand).1 (commandError_ne_illegalCommand i s), ?_⟩
  rcases exec_error_cases hready hexec with ⟨e, -, rfl⟩ | ⟨-, hzero⟩
  · rw [State.err_raise]
    exact ⟨e.code_ne_seven, fun _ => rfl⟩
  · rw [hzero]
    exact ⟨by decide, fun hne => absurd rfl hne⟩

/-! ### Priority -/

/-- In the fault state every command word is refused, whatever it decodes to (R194). -/
theorem takeCommand_of_fault {s : State} (h : s.err ≠ 0#3) (cw : Word) : takeCommand cw s = .next s := by
  unfold takeCommand
  cases decode cw with
  | command i => exact exec_of_fault h i
  | illegal why => exact runCommand_of_fault _ _ h

theorem step_command_of_fault {s : State} {cw : Word} {rest : List HostAction} (h : s.err ≠ 0#3)
    (hport : s.port = .command cw :: rest) : step s = .next (s.withPort rest) :=
  (step_of_port_cons hport).trans (takeCommand_of_fault (s := s.withPort rest) h cw)

/-- The error a command word raises outside the fault state, if any: IllegalCommand before the errors of the command
it decodes to (R202, items 2 to 4). -/
def wordError (cw : Word) (s : State) : Option ErrKind :=
  match decode cw with
  | .illegal _ => some .illegalCommand
  | .command i => commandError i s

/-- A command word is refused in the fault state; outside it it raises its error, changing nothing else, or has none
and leaves ERR 0 (R193, R202). -/
theorem takeCommand_error_cases {cw : Word} {s t : State} (h : takeCommand cw s = .next t) :
    (s.err ≠ 0#3 ∧ t = s) ∨
    (s.Ready ∧ ∃ e, wordError cw s = some e ∧ t = s.raise e) ∨
    (s.Ready ∧ wordError cw s = none ∧ t.err = 0#3) := by
  by_cases hready : s.Ready
  · rw [wordError]
    cases hd : decode cw with
    | illegal why =>
      injection (takeCommand_of_illegal hready hd).symm.trans h with ht
      exact .inr (.inl ⟨hready, _, rfl, ht.symm⟩)
    | command i =>
      have hexec : exec i s = .next t := by rwa [takeCommand, hd] at h
      rcases exec_error_cases hready hexec with hraise | hnone
      · exact .inr (.inl ⟨hready, hraise⟩)
      · exact .inr (.inr ⟨hready, hnone⟩)
  · injection (takeCommand_of_fault hready cw).symm.trans h with ht
    exact .inl ⟨hready, ht.symm⟩

/-- ERR after a command word taken outside the fault state: the code of its error, or 0. -/
theorem err_takeCommand_of_ready {cw : Word} {s t : State} (hready : s.Ready) (h : takeCommand cw s = .next t) :
    t.err = (wordError cw s).elim 0#3 ErrKind.code := by
  rcases takeCommand_error_cases h with ⟨hfault, -⟩ | ⟨-, e, he, rfl⟩ | ⟨-, hnone, hzero⟩
  · exact absurd hready hfault
  · rw [he]
    exact s.err_raise e
  · rw [hnone]
    exact hzero

/-- Settles O9: a refused word leaves ERR, and another leaves the code of its error, in which IllegalCommand precedes
KeyNotLoaded and KeyNotLoaded the command's own check. -/
theorem errorPriority : Obligations.ErrorPriority := by
  intro s cw rest hport
  by_cases hready : s.err = 0#3
  · obtain ⟨t, hstep⟩ := step_answers_next s
    have htake : takeCommand cw (s.withPort rest) = .next t := (step_of_port_cons hport).symm.trans hstep
    refine ⟨t, hstep, ?_⟩
    rw [if_neg (not_not_intro hready), err_takeCommand_of_ready (s := s.withPort rest) hready htake, wordError]
    cases decode cw with
    | illegal why => rfl
    | command i =>
      by_cases hnoKey : readsKey i = true ∧ s.keyOk = false
      · have hraise : commandError i (s.withPort rest) = some .keyNotLoaded := if_pos hnoKey
        simp only [hraise, if_pos hnoKey]
        rfl
      · have hown : commandError i (s.withPort rest) = ownError i s := if_neg hnoKey
        simp only [hown, if_neg hnoKey]
        cases ownError i s <;> rfl
  · exact ⟨_, step_command_of_fault hready hport, (if_pos hready).symm⟩

/-! ### The fault state -/

theorem State.err_hostReset (s : State) :
    s.hostReset.err = if tablesValid s.sbox then 0#3 else ErrKind.malformedTable.code := Status.err_pack _ _ _

theorem State.tblOk_hostReset (s : State) : s.hostReset.tblOk = tablesValid s.sbox := Status.tblOk_pack _ _ _

/-- No host write reaches ERR (10_state R27). -/
theorem State.err_hostWrite (s : State) (w : HostWrite) : (s.hostWrite w).err = s.err := by cases w <;> rfl

/-- No command word raises MalformedTable (R195). -/
theorem wordError_ne_malformedTable (cw : Word) (s : State) : wordError cw s ≠ some .malformedTable := by
  rw [wordError]
  cases decode cw with
  | illegal why => simp
  | command i => exact commandError_ne_malformedTable i s

/-- What a step that is no reset can do to ERR: leave it, or, outside the fault state, record an error other than
MalformedTable (R193 to R195). -/
theorem err_step_cases {s t : State} (h : step s = .next t) (hreset : s.port.head? ≠ some .reset) :
    t.err = s.err ∨ (s.Ready ∧ ∃ e : ErrKind, e ≠ .malformedTable ∧ t.err = e.code) := by
  cases hport : s.port with
  | nil =>
    have hidle : step s = .next s := by simp [step, takeNext, hport]
    injection hidle.symm.trans h with ht
    exact .inl (congrArg State.err ht.symm)
  | cons act rest =>
    have htake : takeAction act (s.withPort rest) = .next t := (step_of_port_cons hport).symm.trans h
    cases act with
    | command cw =>
      rcases takeCommand_error_cases htake with ⟨-, rfl⟩ | ⟨hready, e, he, rfl⟩ | ⟨hready, -, hzero⟩
      · exact .inl rfl
      · have hne : e ≠ .malformedTable := fun hbad => wordError_ne_malformedTable cw _ (hbad ▸ he)
        exact .inr ⟨hready, e, hne, State.err_raise _ e⟩
      · exact .inl (hzero.trans hready.symm)
    | write w =>
      injection htake with ht
      rw [← ht]
      exact .inl (State.err_hostWrite _ w)
    | read r =>
      injection htake with ht
      rw [← ht]
      exact .inl rfl
    | reset => exact absurd (congrArg List.head? hport) hreset

/-- Settles O8: the frame of a command refuses it, whatever it is; host accesses and reset do not pass that frame. -/
theorem faultStateLastsUntilReset : Obligations.FaultStateLastsUntilReset := by
  intro s hfault
  refine ⟨exec_of_fault hfault, fun cw rest hport => step_command_of_fault hfault hport,
    fun w rest hport => step_of_port_cons hport, fun r rest hport => ?_, fun t hstep hreset => ?_,
    fun rest hport hvalid => ⟨_, step_of_reset hport, ?_⟩⟩
  · rw [step_of_port_cons hport, takeAction, hostRead_port]
    rfl
  · exact (err_step_cases hstep hreset).resolve_right fun hraise => hfault hraise.1
  · exact (State.err_hostReset _).trans (if_pos hvalid)

/-! ### MalformedTable -/

/-- Reset records MalformedTable exactly where the validation fails (R195). -/
theorem State.err_hostReset_eq_malformedTable_iff (s : State) :
    s.hostReset.err = ErrKind.malformedTable.code ↔ tablesValid s.sbox = false := by
  rw [State.err_hostReset]
  cases tablesValid s.sbox <;> decide

/-- In a state that meets the invariant ERR is 1 where the tables are not valid (10_state R37, R39). -/
theorem State.StatusInv.err_of_tables_invalid {s : State} (h : s.StatusInv) (htables : tablesValid s.sbox = false) :
    s.err = ErrKind.malformedTable.code :=
  h.malformed.1 (h.tables.trans htables)

/-- Settles O47: reset packs the outcome of the validation, no other action records code 1, and by the invariant an
engine with bad tables stays in the fault state, which refuses every word. -/
theorem malformedTablesStopTheEngine : Obligations.MalformedTablesStopTheEngine := by
  refine ⟨fun s rest hport => ?_, fun s t hstep hreset herr => ?_, fun s hinv htables => ?_⟩
  · have hcode : (s.withPort rest).hostReset.err = 1#3 ↔ tablesValid s.sbox = false :=
      State.err_hostReset_eq_malformedTable_iff _
    exact ⟨_, step_of_reset hport, hcode, fun herr => (State.tblOk_hostReset _).trans (hcode.1 herr)⟩
  · rcases err_step_cases hstep hreset with hkept | ⟨-, e, hne, hcode⟩
    · exact hkept.symm.trans herr
    · have hcodes : e.code = ErrKind.malformedTable.code := hcode.symm.trans herr
      exact absurd (ErrKind.code_injective hcodes) hne
  · have herr : s.err = ErrKind.malformedTable.code := hinv.status.err_of_tables_invalid htables
    have hfault : s.err ≠ 0#3 := herr ▸ ErrKind.code_ne_zero _
    exact ⟨herr, fun cw rest hport => step_command_of_fault hfault hport⟩

end Sys2Proof.Machine
end

section
/-! PROOFS. 30_encoding: decoding undoes encoding (R94, R95), no two words are one command (R96), the match and
mask columns of the opcode table (R95), and the step on a word that decodes (R91). -/

namespace Sys2Proof.Machine

/-! ### The fields of an encoded word -/

/-- A word put together from an opcode and two immediates has these in its fields, and RSV zero (R90, R93). -/
theorem fields_commandWord (op : BitVec 8) (imm1 imm0 : Nat) :
    opField (commandWord op imm1 imm0) = op ∧ rsvField (commandWord op imm1 imm0) = 0 ∧
      imm1Field (commandWord op imm1 imm0) = BitVec.ofNat 8 imm1 ∧
      imm0Field (commandWord op imm1 imm0) = BitVec.ofNat 8 imm0 := by
  have hdigits := (word_toNat_eq_fields (commandWord op imm1 imm0)).symm.trans (commandWord_toNat op imm1 imm0)
  have hzero : (0 : BitVec 8).toNat = 0 := rfl
  simp only [← BitVec.toNat_inj, BitVec.toNat_ofNat, hzero]
  omega

@[simp] theorem opField_commandWord (op : BitVec 8) (imm1 imm0 : Nat) : opField (commandWord op imm1 imm0) = op :=
  (fields_commandWord op imm1 imm0).1

@[simp] theorem rsvField_commandWord (op : BitVec 8) (imm1 imm0 : Nat) :
    rsvField (commandWord op imm1 imm0) = 0 := (fields_commandWord op imm1 imm0).2.1

@[simp] theorem imm1Field_commandWord (op : BitVec 8) (imm1 imm0 : Nat) :
    imm1Field (commandWord op imm1 imm0) = BitVec.ofNat 8 imm1 := (fields_commandWord op imm1 imm0).2.2.1

@[simp] theorem imm0Field_commandWord (op : BitVec 8) (imm1 imm0 : Nat) :
    imm0Field (commandWord op imm1 imm0) = BitVec.ofNat 8 imm0 := (fields_commandWord op imm1 imm0).2.2.2

/-- An immediate that fits its field is read back as it was (R94). -/
theorem toNat_ofNat_of_immediateFits {v : Nat} (h : ImmediateFits v) : (BitVec.ofNat 8 v).toNat = v :=
  Nat.mod_eq_of_lt h

/-! ### Decoding and encoding -/

/-- A word of format I1 with IMM1 zero gives its immediate back (R93). -/
theorem decodeI1_commandWord (op : BitVec 8) (mk : Nat → Instr) {n : Nat} (h : ImmediateFits n) :
    decodeI1 (commandWord op 0 n) mk = .command (mk n) := by
  rw [decodeI1_eq_command_iff, imm1Field_commandWord, imm0Field_commandWord, toNat_ofNat_of_immediateFits h]
  exact ⟨rfl, rfl⟩

/-- Decoding undoes encoding: by the format of each row of R95, the five words of format Z being fixed words. -/
theorem decode_encode {i : Instr} (h : i.WellFormed) : decode (encode i) = .command i := by
  cases i with
  | ldkey n =>
    rw [encode, decode_of_ldkey_opcode (opField_commandWord ..) (rsvField_commandWord ..)]
    exact decodeI1_commandWord 0x01 .ldkey h
  | subst t n =>
    obtain ⟨ht, hn⟩ := h
    rw [encode, decode_of_subst_opcode (opField_commandWord ..) (rsvField_commandWord ..), imm1Field_commandWord,
      imm0Field_commandWord, toNat_ofNat_of_immediateFits ht, toNat_ofNat_of_immediateFits hn]
  | subkey r =>
    rw [encode, decode_of_subkey_opcode (opField_commandWord ..) (rsvField_commandWord ..)]
    exact decodeI1_commandWord 0x12 .subkey h
  | xform | encblk | decblk | encstr | decstr => decide

/-- Settles O1: the fields of the encoded word are the opcode and the immediates, and the decoder reads them back. -/
theorem encodeThenDecodeGivesCommand : Obligations.EncodeThenDecodeGivesCommand := fun _ h => decode_encode h

/-- What a word decodes to has the values of 8-bit fields as its immediates (R94). -/
theorem wellFormed_of_decode {cw : Word} {i : Instr} (h : decode cw = .command i) : i.WellFormed := by
  have hI1 (mk : Nat → Instr) (hmk : ∀ n, ImmediateFits n → (mk n).WellFormed) (h : decodeI1 cw mk = .command i) :
      i.WellFormed := by
    obtain ⟨-, rfl⟩ := (decodeI1_eq_command_iff cw mk i).1 h
    exact hmk _ (imm0Field cw).isLt
  have hZ (j : Instr) (hj : j.WellFormed) (h : decodeZ cw j = .command i) : i.WellFormed := by
    obtain ⟨-, rfl⟩ := (decodeZ_eq_command_iff cw j i).1 h
    exact hj
  rw [decode, if_neg (not_not_intro (rsvField_of_decode h))] at h
  split_ifs at h
  · exact hI1 .ldkey (fun _ hn => hn) h
  · obtain rfl := Decoded.command.inj h
    exact ⟨(imm1Field cw).isLt, (imm0Field cw).isLt⟩
  · exact hZ .xform trivial h
  · exact hI1 .subkey (fun _ hn => hn) h
  · exact hZ .encblk trivial h
  · exact hZ .decblk trivial h
  · exact hZ .encstr trivial h
  · exact hZ .decstr trivial h

/-- Settles O2: the immediates are values of fields, and a word is put together from its fields. -/
theorem decodedWordIsTheEncoding : Obligations.DecodedWordIsTheEncoding :=
  fun _ _ h => ⟨wellFormed_of_decode h, encode_of_decode h⟩

/-! ### The opcode table -/

theorem imm1Field_toNat (cw : Word) : (imm1Field cw).toNat = cw.toNat / 256 % 256 := by
  rw [word_toNat_eq_fields cw]
  omega

theorem imm0Field_toNat (cw : Word) : (imm0Field cw).toNat = cw.toNat % 256 := by
  rw [word_toNat_eq_fields cw]
  omega

/-- A row of format Z (R95) fixes every bit, so it holds the one word of its command. -/
theorem zRow_iff_decode {i : Instr} (h : i.WellFormed) (cw : Word) :
    cw &&& 0xFFFFFFFF = encode i ↔ decode cw = .command i := by
  have hall : cw &&& 0xFFFFFFFF = cw := BitVec.and_allOnes
  rw [hall, decode_eq_command_iff_of_encode (decode_encode h)]

/-- Settles O3: the rows with operands by the fields that their masks leave, the five others by their one word. -/
theorem decoderAgreesWithOpcodeTable : Obligations.DecoderAgreesWithOpcodeTable := by
  intro cw
  rw [← imm1Field_toNat, ← imm0Field_toNat]
  exact ⟨ldkeyRow_iff_decode cw, substRow_iff_decode cw, zRow_iff_decode (i := .xform) trivial cw,
    subkeyRow_iff_decode cw, zRow_iff_decode (i := .encblk) trivial cw, zRow_iff_decode (i := .decblk) trivial cw,
    zRow_iff_decode (i := .encstr) trivial cw, zRow_iff_decode (i := .decstr) trivial cw⟩

/-- Settles O4: the decoder computes each of the eight words. -/
theorem wordsOfTheSpecDecode : Obligations.WordsOfTheSpecDecode := by
  unfold Obligations.WordsOfTheSpecDecode
  decide

/-! ### The step on a word that decodes -/

theorem takeCommand_of_decode {cw : Word} {i : Instr} (h : decode cw = .command i) (s : State) :
    takeCommand cw s = exec i s := by
  rw [takeCommand, h]

/-- Settles O6: the step takes the word from the port and runs what it decodes to. -/
theorem stepRunsTheDecodedCommand : Obligations.StepRunsTheDecodedCommand :=
  fun _ _ _ _ hport hdecode => (step_of_port_cons hport).trans (takeCommand_of_decode hdecode _)

end Sys2Proof.Machine
end

section
/-! PROOFS. 10_state and 60_exceptions: what a command can do to the state, said once, and from it the frame of the
commands (section 2), precise errors (R193), and what only reset clears (70_reset_and_hazards). -/

namespace Sys2Proof.Machine

/-! ### What a command can do -/

/-- Everything a command can do to a state: nothing, an error raised outside the fault state, or the writes of its
success, which are those of its line in the access summary (10_state section 2). -/
inductive CommandEffect (s : State) (i : Instr) : State → Prop
  | unchanged : CommandEffect s i s
  | raised (e : ErrKind) (hready : s.Ready) (hne : e ≠ .malformedTable) : CommandEffect s i (s.raise e)
  | key (hi : ∃ n, i = .ldkey n) : CommandEffect s i { s with k := s.kin, status := Status.setKeyOk s.status }
  | result (v : Word) (hi : (∃ t n, i = .subst t n) ∨ i = .xform ∨ ∃ r, i = .subkey r) :
      CommandEffect s i { s with res := v }
  | block (b : Block) (hi : i = .encblk ∨ i = .decblk) : CommandEffect s i (s.withBlockResult b)
  | stream (out : List Byte) (n : Nat) (hlen : n ≤ out.length) (hi : i = .encstr ∨ i = .decstr) :
      CommandEffect s i (s.withStreamResult out n)

/-- A command whose own check passes has its success as its effect. -/
theorem commandEffect_of_ownError_eq_none {i : Instr} {s : State} (h : ownError i s = none) :
    CommandEffect s i (commandBody i s) := by
  cases i with
  | ldkey n =>
    obtain rfl : n = 8 := by simpa [ownError] using h
    exact .key ⟨8, rfl⟩
  | subst t n =>
    have hlegal : t ≤ 7 ∧ n ≤ 15 := by simpa [ownError] using h
    simp only [commandBody]
    rw [if_pos ((substOperandsLegal_iff t n).2 hlegal)]
    exact .result _ (.inl ⟨t, n, rfl⟩)
  | xform => exact .result _ (.inr (.inl rfl))
  | subkey r =>
    rw [commandBody_subkey_of_legal s (by simpa [ownError] using h)]
    exact .result _ (.inr (.inr ⟨r, rfl⟩))
  | encblk => rw [commandBody_encblk]; exact .block _ (.inl rfl)
  | decblk => rw [commandBody_decblk]; exact .block _ (.inr rfl)
  | encstr =>
    rw [commandBody_encstr]
    exact .stream _ _ (by simp) (.inl rfl)
  | decstr =>
    rw [commandBody_decstr (by simpa [ownError] using h)]
    exact .stream _ _ s.length_decryptStream_le (.inr rfl)

/-- No command's own check raises MalformedTable (R195). -/
theorem ownError_ne_malformedTable (i : Instr) (s : State) : ownError i s ≠ some .malformedTable := by
  cases i <;> simp [ownError]

theorem exec_commandEffect {i : Instr} {s t : State} (h : exec i s = .next t) : CommandEffect s i t := by
  rcases exec_cases h with ⟨-, rfl⟩ | ⟨hready, -, -, rfl⟩ | ⟨hready, -, rfl⟩
  · exact .unchanged
  · exact .raised .keyNotLoaded hready (by decide)
  · cases he : ownError i s with
    | none => exact commandEffect_of_ownError_eq_none he
    | some e =>
      rw [commandBody_of_ownError_eq_some he]
      exact .raised e hready fun hbad => ownError_ne_malformedTable i s (hbad ▸ he)

/-! ### The frame of the commands -/

@[simp] theorem State.inputByte_raise (s : State) (e : ErrKind) (a : Nat) : (s.raise e).inputByte a = s.inputByte a :=
  rfl

@[simp] theorem State.outputByte_raise (s : State) (e : ErrKind) (a : Nat) :
    (s.raise e).outputByte a = s.outputByte a := rfl

/-- Settles O43: by what a command can do, each effect writing only what the access summary gives it. -/
theorem commandsWriteOnlyTheirResults : Obligations.CommandsWriteOnlyTheirResults := by
  intro i s t hexec
  cases exec_commandEffect hexec with
  | unchanged => simp
  | raised e hready hne => simp
  | key hi =>
    obtain ⟨n, rfl⟩ := hi
    simp [State.tblOk, State.keyOk, State.inputByte, State.outputByte]
  | result v hi =>
    refine ⟨⟨rfl, rfl, rfl, rfl, rfl, rfl, rfl, rfl, fun _ => rfl⟩, ⟨rfl, rfl, id⟩, fun _ => ⟨rfl, rfl⟩,
      fun hsubst hxform hsubkey => ?_, fun _ _ => rfl, fun _ _ => ⟨rfl, rfl, rfl, fun _ => rfl⟩,
      fun _ _ _ _ => ⟨rfl, rfl⟩⟩
    rcases hi with ⟨a, b, hi⟩ | hi | ⟨r, hi⟩
    · exact absurd hi (hsubst a b)
    · exact absurd hi hxform
    · exact absurd hi (hsubkey r)
  | block b hi =>
    exact ⟨⟨rfl, rfl, rfl, rfl, rfl, rfl, rfl, rfl, fun _ => rfl⟩, ⟨rfl, rfl, id⟩, fun _ => ⟨rfl, rfl⟩,
      fun _ _ _ => rfl, fun henc hdec => absurd hi (not_or.2 ⟨henc, hdec⟩),
      fun _ _ => ⟨rfl, rfl, rfl, fun _ => rfl⟩, fun henc hdec _ _ => absurd hi (not_or.2 ⟨henc, hdec⟩)⟩
  | stream out n hlen hi =>
    exact ⟨⟨rfl, rfl, rfl, rfl, rfl, rfl, rfl, rfl, fun _ => rfl⟩, ⟨rfl, rfl, id⟩, fun _ => ⟨rfl, rfl⟩,
      fun _ _ _ => rfl, fun _ _ => rfl, fun henc hdec => absurd hi (not_or.2 ⟨henc, hdec⟩),
      fun _ _ henc hdec => absurd hi (not_or.2 ⟨henc, hdec⟩)⟩

/-! ### What no step writes, and what only reset clears -/

theorem State.sbox_hostWrite (s : State) (w : HostWrite) : (s.hostWrite w).sbox = s.sbox := by cases w <;> rfl

theorem State.keyOk_hostWrite (s : State) (w : HostWrite) : (s.hostWrite w).keyOk = s.keyOk := by cases w <;> rfl

/-- An Illegal word at most raises IllegalCommand (R91, R97). -/
theorem illegalCommand_cases {s t : State} (h : illegalCommand s = .next t) :
    t = s ∨ s.Ready ∧ t = s.raise .illegalCommand := by
  by_cases hready : s.Ready
  · injection (runCommand_of_ready _ hready).symm.trans h with ht
    exact .inr ⟨hready, ht.symm⟩
  · injection (runCommand_of_fault _ _ hready).symm.trans h with ht
    exact .inl ht.symm

/-- Settles O16: no action a step can take has the tables among what it writes, reset neither. -/
theorem noStepChangesTheTables : Obligations.NoStepChangesTheTables := by
  intro s t hstep
  rcases step_cases hstep with ⟨-, rfl⟩ | ⟨act, rest, -, hact⟩
  · rfl
  rcases hact with ⟨cw, i, -, -, hexec⟩ | ⟨cw, why, -, -, hillegal⟩ | ⟨w, -, rfl⟩ | ⟨r, -, rfl⟩ | ⟨-, rfl⟩
  · obtain ⟨⟨-, -, -, -, -, hsbox, -⟩, -⟩ := commandsWriteOnlyTheirResults i _ t hexec
    exact hsbox
  · rcases illegalCommand_cases hillegal with rfl | ⟨-, rfl⟩ <;> rfl
  · exact State.sbox_hostWrite _ w
  · rfl
  · rfl

/-- A step that is no reset leaves KEY_OK set where it is set (10_state R38). -/
theorem keyOk_step_of_not_reset {s t : State} (hstep : step s = .next t) (hreset : s.port.head? ≠ some .reset)
    (hkey : s.keyOk = true) : t.keyOk = true := by
  rcases step_cases hstep with ⟨-, rfl⟩ | ⟨act, rest, hport, hact⟩
  · exact hkey
  rcases hact with ⟨cw, i, -, -, hexec⟩ | ⟨cw, why, -, -, hillegal⟩ | ⟨w, -, rfl⟩ | ⟨r, -, rfl⟩ | ⟨rfl, -⟩
  · obtain ⟨-, ⟨-, -, hkept⟩, -⟩ := commandsWriteOnlyTheirResults i _ t hexec
    exact hkept hkey
  · rcases illegalCommand_cases hillegal with rfl | ⟨-, rfl⟩
    · exact hkey
    · exact (State.keyOk_raise _ _).trans hkey
  · exact (State.keyOk_hostWrite _ w).trans hkey
  · exact hkey
  · exact absurd (congrArg List.head? hport) hreset

/-- Settles O46: the fault state raises no further error, and no action but reset has a write that clears KEY_OK. -/
theorem onlyResetClearsErrAndKeyOk : Obligations.OnlyResetClearsErrAndKeyOk := by
  intro s t hstep hreset
  exact ⟨fun hfault => (err_step_cases hstep hreset).resolve_right fun hraise => hfault hraise.1,
    keyOk_step_of_not_reset hstep hreset⟩

/-- Settles O10: a command word taken outside the fault state either leaves ERR 0 or only raises its error. -/
theorem errorsArePrecise : Obligations.ErrorsArePrecise := by
  intro s t cw rest hport hready hstep herr
  have htake : takeCommand cw (s.withPort rest) = .next t := (step_of_port_cons hport).symm.trans hstep
  rcases takeCommand_error_cases htake with ⟨hfault, -⟩ | ⟨-, e, -, rfl⟩ | ⟨-, -, hzero⟩
  · exact absurd hready hfault
  · rw [State.err_raise]
    rfl
  · exact absurd hzero herr

end Sys2Proof.Machine
end

section
/-! PROOFS. 10_state sections 5, 7 and 9: the layout of STATUS (R36), the invariant at reset and under every step, and
the tables outside the fault state (40_sbox_set R121). -/

namespace Sys2Proof.Machine

/-! ### The layout of STATUS -/

/-- STATUS as a number is the sum of its fields at their bits (R36). -/
theorem Status.toNat_eq_fields (st : Word) :
    st.toNat = (Status.tblOk st).toNat + 2 * (Status.keyOk st).toNat + 4 * (Status.err st).toNat
      + 32 * (Status.reserved st).toNat := by
  have hbit (n : Nat) : (st.getLsbD n).toNat = st.toNat / 2 ^ n % 2 := Nat.toNat_testBit ..
  rw [Status.tblOk, Status.keyOk, Status.err, Status.reserved, hbit, hbit, BitVec.extractLsb'_toNat,
    BitVec.extractLsb'_toNat, Nat.shiftRight_eq_div_pow, Nat.shiftRight_eq_div_pow]
  omega

/-- Settles O12: the fields cover the word, and each way of writing one keeps the others. -/
theorem statusLayout : Obligations.StatusLayout :=
  ⟨Status.toNat_eq_fields,
    fun st e => ⟨Status.err_setErr st e, Status.tblOk_setErr st e, Status.keyOk_setErr st e,
      Status.reserved_setErr st e⟩,
    fun st => ⟨Status.keyOk_setKeyOk st, Status.tblOk_setKeyOk st, Status.err_setKeyOk st,
      Status.reserved_setKeyOk st⟩⟩

/-! ### The invariant at reset -/

/-- The values of reset meet the invariant when TBL_OK is the outcome of the validation (R37, R55). -/
theorem State.inv_resetValues (sbox : SBox) (port : List HostAction) (hostOut : Option HostValue) (free : Free) :
    (State.resetValues sbox (tablesValid sbox) port hostOut free).Inv where
  status := by
    have herr : (State.resetValues sbox (tablesValid sbox) port hostOut free).err =
        if tablesValid sbox then 0 else ErrKind.malformedTable.code := Status.err_pack ..
    have htbl : (State.resetValues sbox (tablesValid sbox) port hostOut free).tblOk = tablesValid sbox :=
      Status.tblOk_pack ..
    refine ⟨Status.reserved_pack .., ?_, htbl, ?_⟩
    · rw [herr]
      cases tablesValid sbox <;> decide
    · rw [herr, htbl]
      cases tablesValid sbox <;> decide
  key := fun _ => rfl
  buffers := ⟨Memory.wf_nil, Memory.wf_nil, fun a => iff_of_false Bool.false_ne_true (Nat.not_lt_zero a)⟩

/-- Settles O50: `State.reset` holds the values of reset for tables that were validated. -/
theorem invariantHoldsAtReset : Obligations.InvariantHoldsAtReset := by
  have h := State.inv_resetValues Config.sbox [] none ⟨0, 0, 0, 0⟩
  rwa [← State.reset_eq] at h

/-- Settles O45: the values are those reset writes, and the tables of `Config.sbox` are valid by their type. -/
theorem resetStateHoldsTheResetValues : Obligations.ResetStateHoldsTheResetValues := by
  have hstatus : Status.pack true false 0 = 1 := by decide
  exact ⟨tablesValid_configSbox, hstatus, fun i => ⟨Vector.get_replicate 8 0 i, Vector.get_replicate 8 0 i⟩,
    rfl, rfl, rfl, rfl, rfl, rfl, fun _ => ⟨rfl, rfl⟩, rfl⟩

/-! ### The invariant under a command -/

/-- The invariant speaks of STATUS, SBOX, K, the buffers and OLEN only. -/
theorem State.Inv.congr {s t : State} (h : s.Inv) (hstatus : t.status = s.status) (hsbox : t.sbox = s.sbox)
    (hk : t.k = s.k) (hibuf : t.ibuf = s.ibuf) (hobuf : t.obuf = s.obuf) (holen : t.olen = s.olen) : t.Inv := by
  cases s
  cases t
  dsimp only at hstatus hsbox hk hibuf hobuf holen
  subst hstatus hsbox hk hibuf hobuf holen
  obtain ⟨⟨hreserved, herr, htables, hmalformed⟩, hkey, ⟨hinput, houtput, hlisted⟩⟩ := h
  exact ⟨⟨hreserved, herr, htables, hmalformed⟩, hkey, ⟨hinput, houtput, hlisted⟩⟩

/-- Outside the fault state the tables have passed the validation (R37, R39). -/
theorem State.StatusInv.tblOk_of_ready {s : State} (h : s.StatusInv) (hready : s.Ready) : s.tblOk = true := by
  rw [← Bool.not_eq_false, h.malformed, hready]
  exact (ErrKind.code_ne_zero .malformedTable).symm

/-- Raising an error of a command keeps the invariant: TBL_OK is 1 before and after it, and ERR is not 1 after it
(R193, R195). -/
theorem State.Inv.raise {s : State} (h : s.Inv) (hready : s.Ready) {e : ErrKind} (hne : e ≠ .malformedTable) :
    (s.raise e).Inv where
  status := by
    have htbl : (s.raise e).tblOk = true := (s.tblOk_raise e).trans (h.status.tblOk_of_ready hready)
    have herr : (s.raise e).err ≠ ErrKind.malformedTable.code := by
      rw [State.err_raise]
      exact ErrKind.code_injective.ne hne
    refine ⟨(Status.reserved_setErr ..).trans h.status.reserved, ?_, (s.tblOk_raise e).trans h.status.tables, ?_⟩
    · rw [State.err_raise]
      exact e.code_ne_seven
    · rw [htbl]
      exact iff_of_false Bool.noConfusion herr
  key := fun hkey => h.key ((s.keyOk_raise e).symm.trans hkey)
  buffers := ⟨h.buffers.input, h.buffers.output, h.buffers.outputListed⟩

/-- Loading a key keeps the invariant, which asks nothing of K while KEY_OK is 1 (R38). -/
theorem State.Inv.loadKey {s : State} (h : s.Inv) :
    State.Inv { s with k := s.kin, status := Status.setKeyOk s.status } where
  status := by
    obtain ⟨hreserved, herr, htables, hmalformed⟩ := h.status
    refine ⟨(Status.reserved_setKeyOk _).trans hreserved, ?_, (Status.tblOk_setKeyOk _).trans htables, ?_⟩
    · simpa [State.err] using herr
    · simpa [State.err, State.tblOk] using hmalformed
  key := fun hkey => absurd ((Status.keyOk_setKeyOk s.status).symm.trans hkey) Bool.noConfusion
  buffers := ⟨h.buffers.input, h.buffers.output, h.buffers.outputListed⟩

/-- After a stream command OBUF lists the bytes of the result, and no other (R46). -/
theorem State.Inv.withStreamResult {s : State} (h : s.Inv) {out : List Byte} {n : Nat} (hlen : n ≤ out.length) :
    (s.withStreamResult out n).Inv where
  status := ⟨h.status.reserved, h.status.errCode, h.status.tables, h.status.malformed⟩
  key := h.key
  buffers := by
    refine ⟨h.buffers.input, State.wf_obuf_finishStream (Memory.wf_storeBytes h.buffers.output 0 out) n, fun a => ?_⟩
    rw [State.find_obuf_withStreamResult, State.withStreamResult_olen]
    by_cases ha : a < n
    · rw [if_pos ha, Memory.find_storeBytes_zero _ (ha.trans_le hlen), List.getElem?_eq_getElem (ha.trans_le hlen)]
      exact iff_of_true rfl ha
    · rw [if_neg ha]
      exact iff_of_false Bool.false_ne_true ha

/-- Every command keeps the invariant, whatever its effect. -/
theorem State.Inv.exec {s t : State} {i : Instr} (h : s.Inv) (hexec : exec i s = .next t) : t.Inv := by
  cases exec_commandEffect hexec with
  | unchanged => exact h
  | raised e hready hne => exact h.raise hready hne
  | key hi => exact h.loadKey
  | result v hi => exact h.congr rfl rfl rfl rfl rfl rfl
  | block b hi => exact h.congr rfl rfl rfl rfl rfl rfl
  | stream out n hlen hi => exact h.withStreamResult hlen

/-! ### The invariant under a step -/

/-- A host write reaches, of what the invariant speaks of, IBUF alone, which it keeps in canonical form. -/
theorem State.Inv.hostWrite {s : State} (h : s.Inv) (w : HostWrite) : (s.hostWrite w).Inv := by
  cases w with
  | ibuf a v =>
    exact ⟨⟨h.status.reserved, h.status.errCode, h.status.tables, h.status.malformed⟩, h.key,
      ⟨Memory.wf_store h.buffers.input a v, h.buffers.output, h.buffers.outputListed⟩⟩
  | _ => exact h.congr rfl rfl rfl rfl rfl rfl

/-- Settles O51: by what a step can do; the word or the access taken from the port is no matter of the invariant. -/
theorem everyStepKeepsTheInvariant : Obligations.EveryStepKeepsTheInvariant := by
  intro s t hinv hstep
  rcases step_cases hstep with ⟨-, rfl⟩ | ⟨act, rest, -, hact⟩
  · exact hinv
  have htaken : (s.withPort rest).Inv := hinv.congr rfl rfl rfl rfl rfl rfl
  rcases hact with ⟨cw, i, -, -, hexec⟩ | ⟨cw, why, -, -, hillegal⟩ | ⟨w, -, rfl⟩ | ⟨r, -, rfl⟩ | ⟨-, rfl⟩
  · exact htaken.exec hexec
  · rcases illegalCommand_cases hillegal with rfl | ⟨hready, rfl⟩
    · exact htaken
    · exact htaken.raise hready (by decide)
  · exact htaken.hostWrite w
  · exact htaken.congr rfl rfl rfl rfl rfl rfl
  · exact State.inv_resetValues ..

/-! ### The tables outside the fault state -/

/-- A lookup is the table read at the index, so valid tables make it a bijection of the nibbles (R43, R121). -/
theorem substitute_bijective {sbox : SBox} (h : tablesValid sbox = true) (t : Fin 8) :
    Function.Bijective (substitute sbox t) :=
  ((validTablesAreBijections sbox).1 h t).comp (BitVec.equivFin (m := 4)).bijective

/-- Settles O15: by the invariant TBL_OK is 1 outside the fault state, and is the outcome of the validation. -/
theorem tablesAreBijectionsOutsideTheFaultState : Obligations.TablesAreBijectionsOutsideTheFaultState := by
  intro s hinv hready
  have hvalid : tablesValid s.sbox = true := hinv.status.tables.symm.trans (hinv.status.tblOk_of_ready hready)
  exact ⟨hvalid, substitute_bijective hvalid⟩

end Sys2Proof.Machine
end

section
/-! PROOFS. 41_round_transform section 3: the properties of the transform (R133), by nibbles; and 42_key_schedule
section 1: the two sequences of key-word indices (R141). -/

namespace Sys2Proof.Machine

/-! ### A word and its nibbles -/

/-- A word is its eight nibbles (00_scope R8). -/
theorem word_ext_nibbleAt {v w : Word} (h : ∀ j, nibbleAt v j = nibbleAt w j) : v = w := by
  refine BitVec.eq_of_getLsbD_eq fun i hi => ?_
  have hindex : 4 * (i / 4) + i % 4 = i := Nat.div_add_mod i 4
  have hbit : i % 4 < 4 := Nat.mod_lt i (by decide)
  have hnibble := congrArg (fun x : Nibble => x.getLsbD (i % 4)) (h ⟨i / 4, by omega⟩)
  simpa [nibbleAt, hbit, hindex] using hnibble

/-- Substitution acts on each nibble by the table of its position (R130, step 2). -/
theorem nibbleAt_substituteNibbles (sbox : SBox) (sum : Word) (j : Fin 8) :
    nibbleAt (substituteNibbles sbox sum) j = substitute sbox j (nibbleAt sum j) := by
  refine BitVec.eq_of_getLsbD_eq fun b hb => ?_
  have hread : (nibbleAt (substituteNibbles sbox sum) j).getLsbD b =
      (substituteNibbles sbox sum).getLsbD (4 * j.val + b) := by simp [nibbleAt, hb]
  exact hread.trans (getLsbD_substituteNibbles sbox sum j ⟨b, hb⟩)

/-! ### The properties of the transform -/

/-- The rotation moves bits and loses none (00_scope R9). -/
theorem rotl32_injective {s : Nat} (h : s < 32) : Function.Injective fun v => rotl32 v s := by
  intro v w hrot
  refine BitVec.eq_of_getLsbD_eq fun k hk => ?_
  rw [← getLsbD_rotl32 v h hk, ← getLsbD_rotl32 w h hk]
  exact congrArg (fun x : Word => x.getLsbD ((k + s) % 32)) hrot

/-- Tables without a repeated entry lose nothing of a word. -/
theorem substituteNibbles_injective {sbox : SBox} (h : tablesValid sbox = true) :
    Function.Injective (substituteNibbles sbox) := by
  intro v w hsubst
  refine word_ext_nibbleAt fun j => (substitute_bijective h j).injective ?_
  rw [← nibbleAt_substituteNibbles, ← nibbleAt_substituteNibbles, hsubst]

theorem substituteNibbles_of_identity {sbox : SBox} (h : ∀ (t : Fin 8) (n : Nibble), substitute sbox t n = n)
    (sum : Word) : substituteNibbles sbox sum = sum :=
  word_ext_nibbleAt fun j => (nibbleAt_substituteNibbles sbox sum j).trans (h j _)

/-- The transform reads its two operands in their sum only (R130, step 1). -/
theorem transform_congr_sum (sbox : SBox) {acc sk acc' sk' : Word} (h : acc + sk = acc' + sk') :
    transform sbox acc sk = transform sbox acc' sk' := by
  rw [transform, transform, h]

/-- With valid tables each of the three steps is injective, so the transform is, and words are finitely many (R133). -/
theorem transform_bijective {sbox : SBox} (h : tablesValid sbox = true) (sk : Word) :
    Function.Bijective fun acc => transform sbox acc sk :=
  Finite.injective_iff_bijective.1 <|
    (rotl32_injective (by decide)).comp <| (substituteNibbles_injective h).comp (add_left_injective sk)

/-- Settles O18: identity tables leave each nibble, the operands enter by their sum, and each step is injective. -/
theorem transformProperties : Obligations.TransformProperties := by
  refine ⟨fun sbox acc sk hid => ?_, fun sbox acc sk => transform_congr_sum sbox (BitVec.add_comm acc sk),
    fun sbox _ _ _ _ hsum => transform_congr_sum sbox hsum, fun _ sk hvalid => transform_bijective hvalid sk⟩
  rw [transform, substituteNibbles_of_identity hid]

/-! ### The sequences of key-word indices -/

/-- The subkeys of a list of rounds are the key words at the indices of these rounds. -/
theorem map_subkeyForRound (rounds : List Nat) (key : KeyWords) :
    rounds.map (fun r => subkeyForRound r key) = (rounds.map keyIndex).map key.get := by
  rw [List.map_map]
  rfl

/-- Settles O21: the indices of the 32 rounds, in each order, are the table of R141. -/
theorem subkeySequences : Obligations.SubkeySequences := by
  intro key
  rw [map_subkeyForRound, map_subkeyForRound]
  exact ⟨congrArg (List.map key.get) (by decide), congrArg (List.map key.get) (by decide)⟩

end Sys2Proof.Machine
end

section
/-! PROOFS. 43_feistel_network: the sequencer and the block functions (R157), and the round trip of a block (R158); and
20_memory section 2: the halves of a block in its bytes (R62). -/

namespace Sys2Proof.Machine

/-! ### The sequencer -/

/-- While CNT is below 32 a step is one round, with the index that CNT and DIR give (R157). -/
theorem State.seqStep_of_lt {t : State} (h : t.seq.cnt.toNat < 32) :
    t.seqStep =
      { t with seq := { t.seq with
        a := t.seq.b ^^^ transform t.sbox t.seq.a
          (subkeyForRound (if t.seq.dir = 0 then t.seq.cnt.toNat else 31 - t.seq.cnt.toNat) t.k)
        b := t.seq.a
        cnt := t.seq.cnt + 1 } } :=
  if_pos (BitVec.lt_def.2 h)

/-- From 32 on a step changes nothing (R157). -/
theorem State.seqStep_of_ge {t : State} (h : 32 ≤ t.seq.cnt.toNat) : t.seqStep = t :=
  if_neg fun hlt => Nat.not_lt.2 h (BitVec.lt_def.1 hlt)

/-- The result of 32 steps is the block function of the direction (R157). -/
theorem State.seqResult_runBlock (s : State) (blk : Block) (dir : BitVec 1) :
    (s.runBlock blk dir).seqResult = if dir = 0 then encryptBlock s.sbox s.k blk else decryptBlock s.sbox s.k blk := by
  by_cases hdir : dir = 0
  · subst hdir
    exact s.seqResult_runBlock_encrypt blk
  · obtain rfl : dir = dirDecrypt := (BitVec.eq_zero_or_eq_one dir).resolve_left hdir
    exact s.seqResult_runBlock_decrypt blk

/-- Settles O27: after `n` steps the sequencer has done `n` rounds of the block function, and written only the running
pair and CNT since its start. -/
theorem sequencerComputesTheBlockFunctions : Obligations.SequencerComputesTheBlockFunctions := by
  intro s blk dir
  refine ⟨fun n hn => ?_, fun t => State.seqStep_of_lt, fun t => State.seqStep_of_ge, s.seqResult_runBlock blk dir,
    split_fst_toNat blk, split_snd_toNat blk, pack_toNat _ _⟩
  rw [State.seqSteps_seqStart s blk dir hn]
  exact ⟨Nat.mod_eq_of_lt (by omega), rfl, rfl⟩

/-! ### The round trip of a block -/

/-- The pack exchanges the halves that the split takes (R151, R154). -/
theorem split_pack (p : Word × Word) : split (pack p) = p.swap := by
  have hlow := p.1.isLt
  refine Prod.ext (BitVec.eq_of_toNat_eq ?_) (BitVec.eq_of_toNat_eq ?_)
  · rw [split_fst_toNat, pack_toNat, Prod.fst_swap]
    omega
  · rw [split_snd_toNat, pack_toNat, Prod.snd_swap]
    omega

theorem pack_swap_split (blk : Block) : pack (split blk).swap = blk := by
  apply BitVec.eq_of_toNat_eq
  rw [Prod.swap, pack_toNat, split_fst_toNat, split_snd_toNat]
  omega

/-- A round on the exchanged result of a round gives the exchanged pair back, whatever the transform (R150, R158). -/
theorem feistelRound_swap_feistelRound (sbox : SBox) (p : Word × Word) (x : Word) :
    feistelRound sbox (feistelRound sbox p x).swap x = p.swap := by
  simp [feistelRound, Prod.swap]

/-- Rounds in the reverse order, on the exchanged pair, undo the rounds (R158). -/
theorem runRounds_reverse_swap_runRounds (sbox : SBox) (key : KeyWords) (rounds : List Nat) (p : Word × Word) :
    runRounds sbox key rounds.reverse (runRounds sbox key rounds p).swap = p.swap := by
  induction rounds generalizing p with
  | nil => rfl
  | cons r rounds ih =>
    have hinner := ih (feistelRound sbox p (subkeyForRound r key))
    simp only [runRounds, List.reverse_cons, List.foldl_append, List.foldl_cons, List.foldl_nil] at hinner ⊢
    rw [hinner, feistelRound_swap_feistelRound]

/-- The block operation of a sequence of rounds is undone by that of the reverse sequence. -/
theorem pack_runRounds_reverse (sbox : SBox) (key : KeyWords) (rounds : List Nat) (blk : Block) :
    pack (runRounds sbox key rounds.reverse (split (pack (runRounds sbox key rounds (split blk))))) = blk := by
  rw [split_pack, runRounds_reverse_swap_runRounds, pack_swap_split]

@[simp] theorem decryptBlock_encryptBlock (sbox : SBox) (key : KeyWords) (blk : Block) :
    decryptBlock sbox key (encryptBlock sbox key blk) = blk :=
  pack_runRounds_reverse sbox key (List.range 32) blk

@[simp] theorem encryptBlock_decryptBlock (sbox : SBox) (key : KeyWords) (blk : Block) :
    encryptBlock sbox key (decryptBlock sbox key blk) = blk := by
  have h := pack_runRounds_reverse sbox key (List.range 32).reverse blk
  rwa [List.reverse_reverse] at h

/-- Settles O30: the two orders of the rounds are the reverse of each other. -/
theorem blockRoundTrip : Obligations.BlockRoundTrip := by
  intro sbox key
  have hdec : Function.LeftInverse (decryptBlock sbox key) (encryptBlock sbox key) := decryptBlock_encryptBlock sbox key
  have henc : Function.LeftInverse (encryptBlock sbox key) (decryptBlock sbox key) := encryptBlock_decryptBlock sbox key
  exact ⟨hdec, henc, ⟨hdec.injective, henc.surjective⟩, ⟨henc.injective, hdec.surjective⟩⟩

/-! ### The halves in the bytes -/

/-- Byte `i` of a packed pair is byte `i` of A, for the four lowest bytes (R62). -/
theorem le64_pack_getElem?_low (a b : Word) {i : Nat} (h : i < 4) :
    (le64 (pack (a, b)))[i]? = some (BitVec.ofNat 8 (a.toNat / 2 ^ (8 * i))) := by
  rw [le64_getElem? _ (by omega), pack_toNat, Option.some_inj]
  apply BitVec.eq_of_toNat_eq
  rw [BitVec.toNat_ofNat, BitVec.toNat_ofNat]
  interval_cases i <;> omega

/-- Byte `i + 4` of a packed pair is byte `i` of B: the division by 2^32 leaves B (R62). -/
theorem le64_pack_getElem?_high (a b : Word) {i : Nat} (h : i < 4) :
    (le64 (pack (a, b)))[i + 4]? = some (BitVec.ofNat 8 (b.toNat / 2 ^ (8 * i))) := by
  have hpow : 2 ^ (8 * (i + 4)) = 2 ^ 32 * 2 ^ (8 * i) := by rw [← Nat.pow_add]; congr 1; omega
  have hhigh : (b.toNat * 2 ^ 32 + a.toNat) / 2 ^ 32 = b.toNat := by
    have hlow := a.isLt
    omega
  rw [le64_getElem? _ (by omega), pack_toNat, hpow, ← Nat.div_div_eq_div_mul, hhigh]

/-- Settles O33: on input by the block as a sum of bytes, split at 2^32; on output by the pair as a sum of halves. -/
theorem halvesInTheBytes : Obligations.HalvesInTheBytes := by
  obtain ⟨hsum, -, -⟩ := blocksAreLittleEndian
  refine ⟨fun c0 c1 c2 c3 c4 c5 c6 c7 => ⟨?_, ?_⟩,
    fun a b i => ⟨le64_pack_getElem?_low a b i.isLt, le64_pack_getElem?_high a b i.isLt⟩⟩
  · refine (split_fst_toNat _).trans ?_
    rw [hsum]
    omega
  · refine (split_snd_toNat _).trans ?_
    rw [hsum]
    omega

end Sys2Proof.Machine
end

section
/-! PROOFS. 44_ecb_processor section 4: the round trip of a stream (R178), and what a stream command puts out, twice in
a row (20_memory R67) and from states that agree on its inputs (R179). -/

namespace Sys2Proof.Machine

/-! ### The round trip of a stream -/

/-- Storing undoes loading, on a whole chunk (R61). -/
theorem le64_fromLe64 {bs : List Byte} (h : bs.length = 8) : le64 (fromLe64 bs) = bs := by
  have hdigit (cs : List Byte) : ∀ x ∈ cs.map BitVec.toNat, x < 256 := fun x hx => by
    obtain ⟨b, -, rfl⟩ := List.mem_map.1 hx
    exact b.isLt
  have hvalue : Nat.ofDigits 256 ((le64 (fromLe64 bs)).map BitVec.toNat) = Nat.ofDigits 256 (bs.map BitVec.toNat) := by
    rw [← fromLe64_toNat_of_length_le (length_le64 _).le, fromLe64_le64, fromLe64_toNat_of_length_le h.le]
  refine List.map_injective_iff.2 (fun _ _ => BitVec.eq_of_toNat_eq) ?_
  exact Nat.ofDigits_inj_of_len_eq (by decide) (by simp [h]) (hdigit _) (hdigit _) hvalue

/-- What one block function did to whole chunks, a left inverse of it undoes. -/
theorem mapBlocks_mapBlocks {f g : Block → Block} (h : Function.LeftInverse g f) {n : Nat} {p : List Byte}
    (hlen : p.length = 8 * n) : mapBlocks g n (mapBlocks f n p) = p := by
  induction n generalizing p with
  | zero => exact (List.length_eq_zero_iff.1 hlen).symm
  | succ n ih =>
    have hchunk : (p.take 8).length = 8 := by simp; omega
    have hrest : (p.drop 8).length = 8 * n := by simp; omega
    simp only [mapBlocks]
    rw [List.take_left' (length_le64 _), List.drop_left' (length_le64 _), fromLe64_le64, h, le64_fromLe64 hchunk,
      ih hrest, List.take_append_drop]

/-- Zero bytes at the end do not survive stripping (R174). -/
theorem stripZeros_append_zeros (d : List Byte) (n : Nat) : stripZeros (d ++ zeros n) = stripZeros d := by
  induction n with
  | zero => rw [zeros, List.replicate_zero, List.append_nil]
  | succ n ih =>
    have hlast : zeros (n + 1) = zeros n ++ [0] := List.replicate_succ'
    rw [hlast, ← List.append_assoc, stripZeros_concat, if_pos rfl, ih]

/-- Stripping leaves exactly those sequences alone that are empty or end in a non-zero byte (R174). -/
theorem stripZeros_eq_self_iff (d : List Byte) :
    stripZeros d = d ↔ d = [] ∨ ∃ init last, d = init ++ [last] ∧ last ≠ 0 := by
  constructor
  · intro h
    have hshape := stripZeros_eq_nil_or_concat d
    rwa [h] at hshape
  · rintro (rfl | ⟨init, last, rfl, hne⟩)
    · rfl
    · rw [stripZeros_concat, if_neg hne]

/-- Decryption gives the padded data back, and strips it once (R171, R173, R178). -/
theorem decryptStream_encryptStream (sbox : SBox) (key : KeyWords) (d : List Byte) :
    decryptStream sbox key (encryptStream sbox key d) = stripZeros d := by
  have hpadded : (d ++ zeros (padLength d.length)).length = 8 * (d.length / 8 + 1) := by
    rw [List.length_append, length_zeros, add_padLength]
  have hblocks : (encryptStream sbox key d).length / 8 = d.length / 8 + 1 := by
    rw [length_encryptStream, add_padLength, Nat.mul_div_cancel_left _ (by decide)]
  rw [decryptStream, hblocks, encryptStream_eq_mapBlocks,
    mapBlocks_mapBlocks (decryptBlock_encryptBlock sbox key) hpadded, stripZeros_append_zeros]

/-- Settles O40: the blocks come back by the round trip of a block, and stripping takes the padding with the data's own
trailing zeros. -/
theorem streamRoundTrip : Obligations.StreamRoundTrip := by
  intro sbox key d
  rw [decryptStream_encryptStream]
  refine ⟨rfl, stripZeros_eq_self_iff d, fun e z hd he => ?_⟩
  rw [hd, stripZeros_append_zeros]
  exact (stripZeros_eq_self_iff e).2 he

/-! ### What a stream command puts out -/

/-- ENCSTR puts out the encryption of its input, whatever else the state holds (R175). -/
theorem exec_encstr_output {s : State} (h : s.ReadyWithKey) :
    ∃ t, exec .encstr s = .next t ∧ t.olen = (encryptStream s.sbox s.k s.inputBytes).length ∧
      t.outputBytes = encryptStream s.sbox s.k s.inputBytes := by
  refine ⟨_, exec_encstr_of_readyWithKey h, ?_, s.outputBytes_withStreamResult_encryptStream⟩
  rw [State.withStreamResult_olen, length_encryptStream, State.length_inputBytes]

/-- DECSTR puts out the decryption of its input, whatever else the state holds (R176). -/
theorem exec_decstr_output {s : State} (h : s.ReadyWithKey) (hlen : s.ilen % 8 = 0) :
    ∃ t, exec .decstr s = .next t ∧ t.olen = (decryptStream s.sbox s.k s.inputBytes).length ∧
      t.outputBytes = decryptStream s.sbox s.k s.inputBytes :=
  ⟨_, exec_decstr_of_readyWithKey h hlen, rfl, s.outputBytes_withStreamResult_decryptStream⟩

/-- Settles O42: the output is a function of the input bytes, K and SBOX, on which the two states agree. -/
theorem streamCommandsKeepNothing : Obligations.StreamCommandsKeepNothing := by
  intro s s' hready hready' hinput hk hsbox
  have hilen : s.ilen = s'.ilen := by rw [← s.length_inputBytes, hinput, s'.length_inputBytes]
  constructor
  · obtain ⟨t, hexec, holen, hout⟩ := exec_encstr_output hready
    obtain ⟨t', hexec', holen', hout'⟩ := exec_encstr_output hready'
    rw [hinput, hk, hsbox] at holen hout
    exact ⟨t, t', hexec, hexec', holen.trans holen'.symm, hout.trans hout'.symm⟩
  · intro hlen
    obtain ⟨t, hexec, holen, hout⟩ := exec_decstr_output hready hlen
    obtain ⟨t', hexec', holen', hout'⟩ := exec_decstr_output hready' (hilen ▸ hlen)
    rw [hinput, hk, hsbox] at holen hout
    exact ⟨t, t', hexec, hexec', holen.trans holen'.symm, hout.trans hout'.symm⟩

/-- Settles O41: a stream command writes none of its inputs, so the state before it and the state after it agree on
what its output depends on. -/
theorem repeatedStreamCommandGivesTheSame : Obligations.RepeatedStreamCommandGivesTheSame := by
  intro s hready
  have hagain (out : List Byte) (n : Nat) :=
    streamCommandsKeepNothing s (s.withStreamResult out n) hready hready rfl rfl rfl
  constructor
  · have hfirst := exec_encstr_of_readyWithKey hready
    obtain ⟨⟨t, u, ht, hu, holen, hout⟩, -⟩ := hagain _ _
    obtain rfl := Host.Outcome.next.inj (hfirst.symm.trans ht)
    exact ⟨_, u, hfirst, hu, holen.symm, hout.symm⟩
  · intro hlen
    have hfirst := exec_decstr_of_readyWithKey hready hlen
    obtain ⟨-, hdec⟩ := hagain _ _
    obtain ⟨t, u, ht, hu, holen, hout⟩ := hdec hlen
    obtain rfl := Host.Outcome.next.inj (hfirst.symm.trans ht)
    exact ⟨_, u, hfirst, hu, holen.symm, hout.symm⟩

end Sys2Proof.Machine
end

section
/-! PROOFS. 10_state section 2: the host's writes and reads (R26, R27); and the idle engine and the host's side under a
reset (60_exceptions R215, 70_reset_and_hazards R220). -/

namespace Sys2Proof.Machine

/-! ### Host writes -/

/-- A step with a host write pending makes that write. -/
theorem step_of_write {s : State} {w : HostWrite} {rest : List HostAction} (h : s.port = .write w :: rest) :
    step s = .next ((s.withPort rest).hostWrite w) := step_of_port_cons h

/-- A byte written to IBUF is what the engine reads there (10_state R45). -/
theorem State.inputByte_hostWrite_ibuf_self (s : State) (a : Nat) (v : Byte) :
    (s.hostWrite (.ibuf a v)).inputByte a = v := by
  have hfind : (s.hostWrite (.ibuf a v)).ibuf.find a = some v := Memory.find_store_self s.ibuf a v
  rw [State.inputByte, hfind, Option.getD_some]

/-- A byte written to IBUF leaves every other byte of it, one that nothing has written too (10_state R45). -/
theorem State.inputByte_hostWrite_ibuf_ne (s : State) {a x : Nat} (v : Byte) (h : x ≠ a) :
    (s.hostWrite (.ibuf a v)).inputByte x = s.inputByte x := by
  have hfind : (s.hostWrite (.ibuf a v)).ibuf.find x = s.ibuf.find x := Memory.find_store_ne s.ibuf v h
  rw [State.inputByte, hfind]
  rfl

/-- A host write to what the host may not write has no effect (10_state R27). -/
theorem State.hostWrite_of_no_right (s : State) {w : HostWrite} (hkin : ∀ i v, w ≠ .kin i v) (hacc : ∀ v, w ≠ .acc v)
    (hsk : ∀ v, w ≠ .sk v) (hblk : ∀ v, w ≠ .blk v) (hilen : ∀ n, w ≠ .ilen n) (hibuf : ∀ a v, w ≠ .ibuf a v) :
    s.hostWrite w = s := by
  cases w with
  | kin i v => exact absurd rfl (hkin i v)
  | acc v => exact absurd rfl (hacc v)
  | sk v => exact absurd rfl (hsk v)
  | blk v => exact absurd rfl (hblk v)
  | ilen n => exact absurd rfl (hilen n)
  | ibuf a v => exact absurd rfl (hibuf a v)
  | _ => rfl

/-- Settles O48: the step makes the write on the state that no longer has it pending, place by place. -/
theorem hostWritesWithinTheirRights : Obligations.HostWritesWithinTheirRights := by
  intro s rest
  refine ⟨fun i v hport => ⟨_, step_of_write hport, ?_, fun j hne => ?_, rfl⟩, fun v hport => step_of_write hport,
    fun v hport => step_of_write hport, fun v hport => step_of_write hport, fun n hport => step_of_write hport,
    fun a v hport => ⟨_, step_of_write hport, State.inputByte_hostWrite_ibuf_self _ a v,
      fun x hne => State.inputByte_hostWrite_ibuf_ne _ v hne, rfl⟩,
    fun w hport hkin hacc hsk hblk hilen hibuf => ?_⟩
  · exact Vector.getElem_set_self i.isLt
  · exact Vector.getElem_set_ne i.isLt j.isLt (Fin.val_ne_of_ne hne.symm)
  · rw [step_of_write hport, State.hostWrite_of_no_right _ hkin hacc hsk hblk hilen hibuf]

/-! ### Host reads -/

/-- A step with a host read pending fills the host's side with what the read returns, and writes nothing else. -/
theorem step_of_read {s : State} {r : HostReg} {rest : List HostAction} (h : s.port = .read r :: rest) :
    step s = .next { s with port := rest, hostOut := s.hostRead r } := by
  rw [step_of_port_cons h, takeAction, hostRead_port]
  rfl

theorem State.hostRead_ibuf_of_lt {s : State} {a : Nat} (h : a < s.ilen) :
    s.hostRead (.ibuf a) = some (.byte (s.inputByte a)) := by
  rw [State.hostRead, if_pos h]

theorem State.hostRead_obuf_of_lt {s : State} {a : Nat} (h : a < s.olen) :
    s.hostRead (.obuf a) = some (.byte (s.outputByte a)) := by
  rw [State.hostRead, if_pos h]

/-- No value is returned for K, SBOX or a transient register (10_state R27). -/
theorem State.hostRead_of_no_right (s : State) {r : HostReg}
    (h : (∃ i, r = .k i) ∨ (∃ t n, r = .sbox t n) ∨ r ∈ [.a, .b, .cnt, .dir, .bi]) : s.hostRead r = none := by
  simp only [List.mem_cons, List.not_mem_nil, or_false] at h
  rcases h with ⟨i, rfl⟩ | ⟨t, n, rfl⟩ | rfl | rfl | rfl | rfl | rfl <;> rfl

/-- Settles O49: the step fills the host's side with what the read returns, place by place. -/
theorem hostReadsWithinTheirRights : Obligations.HostReadsWithinTheirRights := by
  intro s r rest hport
  refine ⟨s.hostRead r, step_of_read hport, ?kin, ?acc, ?sk, ?res, ?blk, ?status, ?ilen, ?olen, ?ibuf, ?obuf,
    ?bufferByte, s.hostRead_of_no_right⟩
  case kin => rintro i rfl; rfl
  case ibuf => rintro a rfl hlt; exact State.hostRead_ibuf_of_lt hlt
  case obuf => rintro a rfl hlt; exact State.hostRead_obuf_of_lt hlt
  case bufferByte => rintro a (rfl | rfl) <;> exact ⟨_, rfl⟩
  all_goals rintro rfl; rfl

/-! ### The idle engine, and the host's side under a reset -/

/-- Settles O7: with an empty port there is no action to take. -/
theorem idleEngineKeepsItsState : Obligations.IdleEngineKeepsItsState := by
  intro s hport
  simp [step, takeNext, hport]

/-- Settles O52: a reset writes neither the port nor the value of the last host read. -/
theorem resetLeavesTheHostSide : Obligations.ResetLeavesTheHostSide :=
  fun s rest hport => ⟨_, step_of_reset hport, (s.withPort rest).hostReset_port, (s.withPort rest).hostReset_hostOut⟩

end Sys2Proof.Machine
end
